-- ==== Sys2Proof/Word.lean ====
section
/-! DEFINITION. The byte type, and the bounds of a cell of a given width (00_scope.md R5, R8). A cell's value is an `Int`
(R8): which integers are cells depends on `CELL_W`, which is a parameter (`IsCell`, log 1). -/

namespace Sys2Proof

/-- One byte of an I/O transfer (20_memory.md R40, R42). -/
abbrev Byte := BitVec 8

/-- `-2^(w-1)`, the least two's-complement integer of width `w` (00_scope.md R5). -/
def leastOfWidth (w : Nat) : Int := -((2 ^ (w - 1) : Nat) : Int)

/-- `2^(w-1) - 1`, the greatest two's-complement integer of width `w` (00_scope.md R5). -/
def greatestOfWidth (w : Nat) : Nat := 2 ^ (w - 1) - 1

end Sys2Proof
end

