-- ==== Sys2Proof/Config.lean ====
section
/-! DEFINITION. The implementation parameters of 00_scope.md R5 and this hardware's values of them. The spec leaves no
result of an instruction undefined, so there is no free constant here. -/

namespace Sys2Proof

/-- `OVERFLOW_MODE` (40_engine.md R80). -/
inductive OverflowMode where
  | fault
  | wrap
  deriving DecidableEq, Repr

/-- `IN_EXT` (20_memory.md R41). -/
inductive InExt where
  | zero
  | sign
  deriving DecidableEq, Repr

/-- `WS_MODE` (30_encoding.md R47). -/
inductive WsMode where
  | all
  | ends
  deriving DecidableEq, Repr

/-- `DANGLING_LINK` (30_encoding.md R57). -/
inductive DanglingLink where
  | shift
  | noShift
  deriving DecidableEq, Repr

/-- The parameters of 00_scope.md R5. -/
structure Params where
  cellW        : Nat
  cap          : Nat
  overflowMode : OverflowMode
  inExt        : InExt
  wsMode       : WsMode
  wsSet        : List Char
  danglingLink : DanglingLink
  irfCap       : Nat
  storeCap     : Nat
  deriving DecidableEq, Repr

/-- `CELL_MIN` (R5). -/
def Params.cellMin (p : Params) : Int := leastOfWidth p.cellW

/-- `CELL_MAX` (R5). -/
def Params.cellMax (p : Params) : Int := greatestOfWidth p.cellW

/-- `ADDR_MAX`: the largest usable data address and branch target, equal to `CELL_MAX` (R5). -/
def Params.addrMax (p : Params) : Nat := greatestOfWidth p.cellW

/-- The integer is a `Cell` of the spec: it lies in `CELL_MIN..CELL_MAX` (00_scope.md R8). -/
abbrev IsCell (p : Params) (v : Int) : Prop := p.cellMin ≤ v ∧ v ≤ p.cellMax

/-- This hardware's values, row by row as 00_scope.md R5 gives them. -/
def Config.hw : Params where
  cellW        := 32
  cap          := 1000000
  overflowMode := .fault
  inExt        := .zero
  wsMode       := .all
  wsSet        := [Char.ofNat 0x20, Char.ofNat 0x09, Char.ofNat 0x0A, Char.ofNat 0x0B, Char.ofNat 0x0C, Char.ofNat 0x0D]
  danglingLink := .shift
  irfCap       := greatestOfWidth 32
  storeCap     := greatestOfWidth 32 + 1

end Sys2Proof
end

