-- ==== Sys2Proof/Syntax.lean ====
section
/-! DEFINITION. Decoded addresses, IRF entries, and the instructions: one constructor per behaviour class
(30_encoding.md R64, 41_instruction_classes.md R88 to R95). -/

namespace Sys2Proof

/-- A decoded address `{ value, has_function }`; the value is exact and unbounded (10_state.md R14, R15). -/
structure Address where
  value       : Nat
  hasFunction : Bool
  deriving DecidableEq, Repr

/-- One entry of the instruction register file, `{ a, b, c }` (10_state.md R14). -/
structure Entry where
  a : Address
  b : Address
  c : Address
  deriving DecidableEq, Repr

/-- The eight behaviour classes, in selector order (30_encoding.md R64). Every class carries the three operand values,
those it ignores included. -/
inductive Instr where
  /-- `SUBLEQ a b c`, selector 0 (R88). -/
  | subleq (a b c : Nat)
  /-- `HALT`, selector 1 (R89). -/
  | halt (a b c : Nat)
  /-- `OUT b`, selector 2 (R90). -/
  | out (a b c : Nat)
  /-- `OUT_HALT b`, selector 3 (R91). -/
  | outHalt (a b c : Nat)
  /-- `IN a`, selector 4 (R92). -/
  | inp (a b c : Nat)
  /-- `IN_HALT a`, selector 5 (R93). -/
  | inpHalt (a b c : Nat)
  /-- `IN_OUT a b`, selector 6 (R94). -/
  | inpOut (a b c : Nat)
  /-- `IN_OUT_HALT a b`, selector 7 (R95). -/
  | inpOutHalt (a b c : Nat)
  deriving DecidableEq, Repr

end Sys2Proof
end

