-- ==== Sys2Proof/WellFormed.lean ====
section
/-! DEFINITION. What a term must satisfy. No instruction is ill-formed: all eight selectors are defined and an operand
value has no bound (30_encoding.md R51, R64), so the checks are on the parameters and on a program. -/

namespace Sys2Proof

/-- Every instruction of the syntax has an encoding, and none is reserved or illegal (30_encoding.md R64, R67). -/
def Instr.wellFormed (_ : Instr) : Bool := true

/-- The least `CELL_W` whose cells hold what an input phase writes: `0..255` under `ZERO`, `-128..127` under `SIGN`
(20_memory.md R31, R41). DEDUCED (log 1): the spec names no least width. -/
def InExt.leastWidth : InExt → Nat
  | .zero => 9
  | .sign => 8

/-- `IRF_CAP` must be at most `ADDR_MAX` (00_scope.md R5), and an input byte must fit a cell. -/
def Params.wellFormed (p : Params) : Bool := decide (p.irfCap ≤ p.addrMax) && decide (p.inExt.leastWidth ≤ p.cellW)

/-- A program fits the IRF (10_state.md R14). -/
def programFits (p : Params) (es : List Entry) : Bool := decide (es.length ≤ p.irfCap)

/-- A program that a bit string can stand for: not empty (an empty bit sequence is a load error, 30_encoding.md R54;
log 12) and no longer than the IRF. -/
def programWellFormed (p : Params) (es : List Entry) : Bool := !es.isEmpty && programFits p es

end Sys2Proof
end

