-- ==== Sys2Proof/Decode.lean ====
section
/-! DEFINITION. The bitstream decoder (30_encoding.md R47 to R61), the selector map (R64), and after them the encoder
(R67) and the host's table words. The decoder is total: any source gives a program or a load error by name. -/

namespace Sys2Proof

/-- The two load errors (30_encoding.md R54, R60). -/
inductive LoadError where
  /-- The bit sequence is empty (R54). -/
  | unexpectedEndOfBitstream
  /-- The program has more than `IRF_CAP` instructions (R60). -/
  | programTooLong
  deriving DecidableEq, Repr

/-- What the decoder answers: a value, or a load error by name. -/
inductive Loaded (α : Type) where
  | ok (a : α)
  | error (e : LoadError)
  deriving DecidableEq, Repr

/-! ### From the source to bits (R47) -/

/-- Step (1) of R47: the characters of `WS_SET` are dropped everywhere (`ALL`) or at the two ends (`ENDS`). -/
def stripWhitespace (p : Params) (source : List Char) : List Char :=
  match p.wsMode with
  | .all => source.filter (fun ch => !p.wsSet.contains ch)
  | .ends =>
    let noLead := source.dropWhile (fun ch => p.wsSet.contains ch)
    (noLead.reverse.dropWhile (fun ch => p.wsSet.contains ch)).reverse

/-- Only U+0030 and U+0031 are bits (R47). -/
def isBit (ch : Char) : Bool := ch == '0' || ch == '1'

/-- The bit sequence `B`: the longest prefix of bits after step (1) (R47). -/
def bitSequence (p : Params) (source : List Char) : List Bool :=
  ((stripWhitespace p source).takeWhile isBit).map (fun ch => ch == '1')

/-! ### Segments and addresses (R48 to R57) -/

/-- The value of a segment's nibble: the first data bit read is the most significant (R49). -/
def nibble (d3 d2 d1 d0 : Bool) : Nat := 8 * d3.toNat + 4 * d2.toNat + 2 * d1.toNat + d0.toNat

/-- The running value after one more nibble (R51). -/
def accumulate (value nib : Nat) : Nat := value * 16 + nib

/-- The value of an address whose last complete segment linked to nothing (R57). -/
def danglingValue (p : Params) (value : Nat) : Nat :=
  match p.danglingLink with
  | .shift => accumulate value 0
  | .noShift => value

/-- `read_address` (R53). `value` and `seg` are its running value and segments completed; the list is what the cursor
has not read. It answers the address and the bits left. The short patterns are the ends of the stream, in the order
zero data bits (R54, R57), one to three data bits, zero-padded (R55), before `s` and before `l` (R56). -/
def readAddress (p : Params) (firstRequest : Bool) (value seg : Nat) : List Bool → Loaded (Address × List Bool)
  | [] =>
    if seg = 0 then
      if firstRequest then .error .unexpectedEndOfBitstream else .ok (⟨accumulate value 0, false⟩, [])
    else .ok (⟨danglingValue p value, false⟩, [])
  | [d3] => .ok (⟨accumulate value (nibble d3 false false false), false⟩, [])
  | [d3, d2] => .ok (⟨accumulate value (nibble d3 d2 false false), false⟩, [])
  | [d3, d2, d1] => .ok (⟨accumulate value (nibble d3 d2 d1 false), false⟩, [])
  | [d3, d2, d1, d0] => .ok (⟨accumulate value (nibble d3 d2 d1 d0), false⟩, [])
  | [d3, d2, d1, d0, _] => .ok (⟨accumulate value (nibble d3 d2 d1 d0), false⟩, [])
  | d3 :: d2 :: d1 :: d0 :: s :: l :: rest =>
    if l then readAddress p false (accumulate value (nibble d3 d2 d1 d0)) (seg + 1) rest
    else .ok (⟨accumulate value (nibble d3 d2 d1 d0), s⟩, rest)

/-! ### Programs (R58 to R60) -/

/-- The loop of `decode_program` (R58), with what it has appended so far. `fuel` bounds the rounds; every round that
goes on has read at least one bit, so `decodeProgram`'s fuel is never used up (log 13). -/
def decodeLoop (p : Params) : Nat → Bool → List Entry → List Bool → Loaded (List Entry)
  | 0, _, done, _ => .ok done
  | fuel + 1, firstRequest, done, bits =>
    match readAddress p firstRequest 0 0 bits with
    | .error e => .error e
    | .ok (_, []) => .ok done
    | .ok (a, r1) =>
      match readAddress p false 0 0 r1 with
      | .error e => .error e
      | .ok (_, []) => .ok done
      | .ok (b, r2) =>
        match readAddress p false 0 0 r2 with
        | .error e => .error e
        | .ok (c, r3) =>
          if done.length = p.irfCap then .error .programTooLong
          else if r3.isEmpty then .ok (done ++ [⟨a, b, c⟩])
          else decodeLoop p fuel false (done ++ [⟨a, b, c⟩]) r3

/-- `decode_program(B)` (R58). -/
def decodeProgram (p : Params) (bits : List Bool) : Loaded (List Entry) :=
  decodeLoop p (bits.length + 1) true [] bits

/-- What LOAD decodes from the program source (R47, R58). -/
def decodeSource (p : Params) (source : List Char) : Loaded (List Entry) :=
  decodeProgram p (bitSequence p source)

/-! ### The selector map (R64) -/

/-- `sel = 4*fa + 2*fb + fc` (R64). -/
def Entry.selector (e : Entry) : Nat :=
  4 * e.a.hasFunction.toNat + 2 * e.b.hasFunction.toNat + e.c.hasFunction.toNat

/-- The behaviour class an IRF entry selects, with its operand values (R64). -/
def Entry.toInstr (e : Entry) : Instr :=
  match e.a.hasFunction, e.b.hasFunction, e.c.hasFunction with
  | false, false, false => .subleq e.a.value e.b.value e.c.value
  | false, false, true => .halt e.a.value e.b.value e.c.value
  | false, true, false => .out e.a.value e.b.value e.c.value
  | false, true, true => .outHalt e.a.value e.b.value e.c.value
  | true, false, false => .inp e.a.value e.b.value e.c.value
  | true, false, true => .inpHalt e.a.value e.b.value e.c.value
  | true, true, false => .inpOut e.a.value e.b.value e.c.value
  | true, true, true => .inpOutHalt e.a.value e.b.value e.c.value

/-! ### The encoder (R67) -/

/-- The IRF entry that stands for an instruction (R64). -/
def Instr.toEntry : Instr → Entry
  | .subleq a b c => ⟨⟨a, false⟩, ⟨b, false⟩, ⟨c, false⟩⟩
  | .halt a b c => ⟨⟨a, false⟩, ⟨b, false⟩, ⟨c, true⟩⟩
  | .out a b c => ⟨⟨a, false⟩, ⟨b, true⟩, ⟨c, false⟩⟩
  | .outHalt a b c => ⟨⟨a, false⟩, ⟨b, true⟩, ⟨c, true⟩⟩
  | .inp a b c => ⟨⟨a, true⟩, ⟨b, false⟩, ⟨c, false⟩⟩
  | .inpHalt a b c => ⟨⟨a, true⟩, ⟨b, false⟩, ⟨c, true⟩⟩
  | .inpOut a b c => ⟨⟨a, true⟩, ⟨b, true⟩, ⟨c, false⟩⟩
  | .inpOutHalt a b c => ⟨⟨a, true⟩, ⟨b, true⟩, ⟨c, true⟩⟩

/-- One segment `[d3 d2 d1 d0][s][l]` (R48, R49). -/
def segmentBits (nib : Nat) (s l : Bool) : List Bool :=
  [nib.testBit 3, nib.testBit 2, nib.testBit 1, nib.testBit 0, s, l]

/-- `k = max(1, ceil(bitlength(v) / 4))` (R67). -/
def digitCount (v : Nat) : Nat := v.log2 / 4 + 1

/-- The last `k` base-16 digits of `v`, most significant first, one segment each; the flag and the end of the address
stand in the last one (R67). -/
def encodeDigits (f : Bool) (v : Nat) : Nat → List Bool
  | 0 => []
  | k + 1 => segmentBits (v / 16 ^ k % 16) (f && k == 0) (k != 0) ++ encodeDigits f v k

/-- `enc((v, f))` (R67). -/
def encodeAddress (x : Address) : List Bool := encodeDigits x.hasFunction x.value (digitCount x.value)

/-- `enc(a) enc(b) enc(c)` (R67). -/
def encodeEntry (e : Entry) : List Bool := encodeAddress e.a ++ encodeAddress e.b ++ encodeAddress e.c

/-- The canonical encoding of an instruction (R67). -/
def encode (i : Instr) : List Bool := encodeEntry i.toEntry

/-- The canonical encoding of a program (R67). -/
def encodeProgram (es : List Entry) : List Bool := es.flatMap encodeEntry

/-- A bit sequence written as a program source (R47). -/
def bitsToSource (bits : List Bool) : List Char := bits.map (fun b => if b then '1' else '0')

/-! ### The host's table words -/

/-- The stream of an instruction whose opcode-table word is `w`: bit 2 is `fa`, bit 1 `fb`, bit 0 `fc`
(the table's match and mask; its mask is `0b111`), every operand value 0, one segment each (R48). DESIGN CHOICE
(log 10). -/
def tableBits (w : Nat) : List Bool :=
  [false, false, false, false, w.testBit 2, false,
   false, false, false, false, w.testBit 1, false,
   false, false, false, false, w.testBit 0, false]

/-- The entry this hardware's decoder reads from a bit sequence that holds exactly one instruction. -/
def decodeOne (bits : List Bool) : Option Entry :=
  match decodeProgram Config.hw bits with
  | .ok [e] => some e
  | .ok _ => none
  | .error _ => none

/-- The instruction the decoder reads from a word of the opcode table (log 10). -/
def decodeTableWord (_nbits w : Nat) : Option Instr := (decodeOne (tableBits w)).map Entry.toInstr

end Sys2Proof
end

