-- ==== Sys2Proof/Machine/State.lean ====
section
/-! DEFINITION. The state of the core as plain data (10_state.md), with what the outside world does held beside it as
data the step reads (10_state.md R25; log 2), and the state right after power-on (70_reset_and_hazards.md R112). -/

namespace Sys2Proof.Machine

/-- The memory store: the listed cells; every other cell reads 0 (10_state.md R16). Canonical form: `Memory.wf`. -/
abbrev Memory := List (Nat × Int)

/-- The footprint `F`: a set of data addresses, listed in rising order (10_state.md R17). -/
abbrev Footprint := List Nat

/-- The run-time faults (60_exceptions.md R96, codes 6 to 8). Raising one is a NEXT state of the model: the spec says
what a fault records (R98, R103; log 5). -/
inductive FaultKind where
  /-- A used operand value is above `ADDR_MAX` (code 6). -/
  | addressRange
  /-- A Subleq result outside the cell range (code 7). -/
  | arithOverflow
  /-- A write needs a store entry and none is free (code 8). -/
  | storeFull
  deriving DecidableEq, Repr

/-- What the termination-reason register `TR` holds (10_state.md R21, 60_exceptions.md R96), in the order of its codes
0 to 8. -/
inductive TermReason where
  | none
  | haltInstruction
  | programCounterOutOfRange
  | instructionCapExceeded
  | unexpectedEndOfBitstream
  | programTooLong
  | addressRange
  | arithOverflow
  | storeFull
  deriving DecidableEq, Repr

/-- The load-state register `LS` (10_state.md R22). -/
inductive LoadState where
  | unloaded
  | loaded
  | loadFailed
  deriving DecidableEq, Repr

/-- The sequencer state `SEQ` (10_state.md R23). -/
inductive SeqState where
  | idle
  | loop
  | waitIn
  | waitOut
  deriving DecidableEq, Repr

/-- One answer of the input source: a byte or the end-of-input marker (20_memory.md R40). -/
inductive InAnswer where
  | byte (x : Byte)
  | eoi
  deriving DecidableEq, Repr

/-- The host's commands (60_exceptions.md R108). The address of READ_MEM is any integer, since its precondition is a
test of the core's. -/
inductive HostCommand where
  | load (source : List Char)
  | run
  | stop
  | readStatus
  | readMem (x : Int)
  deriving DecidableEq, Repr

/-- What the host gets back (60_exceptions.md R108). -/
inductive Reply where
  /-- LOAD: `LS` and `TR`. -/
  | loadDone (ls : LoadState) (tr : TermReason)
  /-- RUN, on return: `TR`. -/
  | runReturned (tr : TermReason)
  /-- READ_STATUS. -/
  | status (ls : LoadState) (tr : TermReason) (halted : Bool) (pc : Int) (instructionCount : Nat) (seq : SeqState)
  /-- READ_MEM. -/
  | cell (v : Int)
  /-- The command's precondition failed; it had no effect (R10). -/
  | refused
  deriving DecidableEq, Repr

/-- What happens next outside the core (10_state.md R25; log 2). -/
inductive Event where
  /-- The core has the turn. -/
  | core
  /-- The host issues a command. -/
  | host (cmd : HostCommand)
  /-- The input source has one more answer ready. -/
  | inputAnswer (x : InAnswer)
  /-- The output sink becomes ready to acknowledge, or stops being so. -/
  | sinkReady (ready : Bool)
  deriving DecidableEq, Repr

/-- The state of the machine. The first ten fields are the spec's; `N` is the length of `irf` (log 15). The last five
are the model's own (log 2): what the outside world will do, and what it has seen. -/
structure State where
  /-- The instruction register file (R14). -/
  irf              : List Entry
  /-- The memory store `M` (R16). -/
  mem              : Memory
  /-- The footprint `F` (R17). -/
  footprint        : Footprint
  /-- The program counter, signed: a cell (R18). -/
  pc               : Int
  /-- The `halted` flag (R19). -/
  halted           : Bool
  /-- `instruction_count` (R20). -/
  instructionCount : Nat
  /-- The termination-reason register `TR` (R21). -/
  tr               : TermReason
  /-- The load-state register `LS` (R22). -/
  ls               : LoadState
  /-- The sequencer state `SEQ` (R23). -/
  seq              : SeqState
  /-- The `STOP_REQ` latch (R23). -/
  stopReq          : Bool
  /-- Outside events still to come, first first; when it is empty the core has every turn. -/
  script           : List Event
  /-- The input source's answers not yet taken, first first; empty: it has not answered. -/
  input            : List InAnswer
  /-- Whether the output sink acknowledges a byte offered now. -/
  sinkReady        : Bool
  /-- The bytes made externally observable, first first (20_memory.md R42). -/
  output           : List Byte
  /-- What the host got back, first first. -/
  replies          : List Reply
  deriving DecidableEq, Repr

/-- Reasons for which the model stops. -/
inductive Fault where
  /-- Raised by `coreTurn` alone: `SEQ` says that a step waits for a collaborator, and no instruction at `pc` has that
  phase. The spec gives no such step an effect (40_engine.md R71, 93_implementation_defined.md I15); no run reaches
  it. Safe. -/
  | noStepInProgress
  deriving DecidableEq, Repr

/-- Reasons for which the model has no meaning for an instruction. -/
inductive Refusal where
  /-- Raised by `exec`'s arms alone, for an instruction that has no meaning yet (none at present). Safe. -/
  | notModelled (mnemonic : String)
  deriving DecidableEq, Repr

/-- The core's own state at the values of step (1) of LOAD (R112): empty IRF, empty store and footprint, `pc = 0`,
Running, `TR = 0`, `SEQ = IDLE`, `STOP_REQ = 0`; `LS` is the power-on value. What stands outside the core is left as it
is (log 16). -/
def State.cleared (s : State) : State where
  irf              := []
  mem              := []
  footprint        := []
  pc               := 0
  halted           := false
  instructionCount := 0
  tr               := .none
  ls               := .unloaded
  seq              := .idle
  stopReq          := false
  script           := s.script
  input            := s.input
  sinkReady        := s.sinkReady
  output           := s.output
  replies          := s.replies

/-- Power-on: every state at the values of step (1) of R112 and `LS = UNLOADED`. The outside world's fields: nothing
scheduled, nothing answered, nothing output, the sink ready (DESIGN CHOICE, log 2). -/
def State.reset : State where
  irf              := []
  mem              := []
  footprint        := []
  pc               := 0
  halted           := false
  instructionCount := 0
  tr               := .none
  ls               := .unloaded
  seq              := .idle
  stopReq          := false
  script           := []
  input            := []
  sinkReady        := true
  output           := []
  replies          := []

end Sys2Proof.Machine
end

