-- ==== Sys2Proof/Machine/Ops.lean ====
section
/-! DEFINITION. The named operations over the store, the footprint, the program counter and the run loop's registers:
MemRead, MemWrite (20_memory.md R30, R31), raising a fault (60_exceptions.md R98, R103), leaving the run loop
(40_engine.md R83). -/

namespace Sys2Proof.Machine

/-! ### The store -/

/-- What a cell that was never written reads as (10_state.md R16). -/
def unlistedCell : Int := 0

/-- The cell at an address; an unlisted address reads `unlistedCell`. -/
def Memory.read : Memory → Nat → Int
  | [], _ => unlistedCell
  | (k, v) :: rest, x => if x = k then v else if x < k then unlistedCell else Memory.read rest x

/-- Replace the cell at an address, keeping the canonical form: a cell that reads as an unlisted one is not listed. -/
def Memory.write : Memory → Nat → Int → Memory
  | [], x, v => if v = unlistedCell then [] else [(x, v)]
  | (k, w) :: rest, x, v =>
    if x < k then (if v = unlistedCell then (k, w) :: rest else (x, v) :: (k, w) :: rest)
    else if x = k then (if v = unlistedCell then rest else (x, v) :: rest)
    else (k, w) :: Memory.write rest x v

/-- The canonical form: addresses strictly rising, and no entry equal to what an unlisted address reads as. -/
abbrev Memory.wf (m : Memory) : Prop :=
  m.Pairwise (fun x y => x.1 < y.1) ∧ ∀ x ∈ m, x.2 ≠ unlistedCell

/-- The store lies in the data space: addresses `0..ADDR_MAX`, each holding a `Cell` (10_state.md R16). -/
abbrev Memory.inSpace (p : Params) (m : Memory) : Prop := ∀ x ∈ m, x.1 ≤ p.addrMax ∧ IsCell p x.2

/-- The footprint with one more address (10_state.md R17). -/
def Footprint.insert : Footprint → Nat → Footprint
  | [], x => [x]
  | k :: rest, x => if x < k then x :: k :: rest else if x = k then k :: rest else k :: Footprint.insert rest x

/-- A footprint lists data addresses, strictly rising. -/
abbrev Footprint.wf (p : Params) (f : Footprint) : Prop := f.Pairwise (· < ·) ∧ ∀ x ∈ f, x ≤ p.addrMax

/-- `MemRead(addr, 1)` (R30). -/
def memRead (s : State) (x : Nat) : Int := s.mem.read x

/-- `MemWrite(addr, 1, v)`: replaces the cell and adds the address to the footprint (R31). -/
def memWrite (x : Nat) (v : Int) (s : State) : State :=
  { s with mem := s.mem.write x v, footprint := s.footprint.insert x }

/-! ### Fetch -/

/-- `N`, the number of instructions loaded (10_state.md R14). -/
def programLength (s : State) : Nat := s.irf.length

/-- `0 <= pc < N` (40_engine.md R83). -/
def pcInRange (s : State) : Bool := decide (0 ≤ s.pc) && decide (s.pc < programLength s)

/-- `IRF[pc]`, where there is such an entry (40_engine.md R72). -/
def fetchEntry (s : State) : Option Entry := if pcInRange s then s.irf[s.pc.toNat]? else none

/-- The fetch's count (40_engine.md R72). -/
def countFetch (s : State) : State := { s with instructionCount := s.instructionCount + 1 }

/-! ### The run loop's end, and faults -/

/-- The codes of 60_exceptions.md R96. -/
def TermReason.code : TermReason → Nat
  | .none => 0
  | .haltInstruction => 1
  | .programCounterOutOfRange => 2
  | .instructionCapExceeded => 3
  | .unexpectedEndOfBitstream => 4
  | .programTooLong => 5
  | .addressRange => 6
  | .arithOverflow => 7
  | .storeFull => 8

/-- The code a fault puts into `TR` (60_exceptions.md R96). -/
def FaultKind.reason : FaultKind → TermReason
  | .addressRange => .addressRange
  | .arithOverflow => .arithOverflow
  | .storeFull => .storeFull

/-- The code a load error puts into `TR` (60_exceptions.md R96, R97). -/
def loadErrorReason : LoadError → TermReason
  | .unexpectedEndOfBitstream => .unexpectedEndOfBitstream
  | .programTooLong => .programTooLong

/-- Every exit of the run loop: `STOP_REQ <- 0`, `SEQ <- IDLE`, and RUN returns `TR` to the host (40_engine.md R83,
60_exceptions.md R108). -/
def leaveLoop (s : State) : State :=
  { s with stopReq := false, seq := .idle, replies := s.replies ++ [.runReturned s.tr] }

/-- The run loop ends the run with a termination reason (40_engine.md R83, R84). -/
def endRun (reason : TermReason) (s : State) : State := leaveLoop { s with tr := reason }

/-- Taking a fault: the run loop writes its code into `TR` and ends; `pc`, the store, the footprint and the
collaborators stay as they are (60_exceptions.md R98, R103). There is no return from a fault (R104). -/
def takeFault (kind : FaultKind) (s : State) : State := endRun kind.reason s

/-! ### The parts of a step -/

/-- How a part of a step ends: the step goes on to its next part, or it ends here for this turn (a fault was taken, or
a collaborator has not answered). -/
inductive Flow where
  | go (s : State)
  | stop (s : State)
  deriving DecidableEq, Repr

/-- One part after another. -/
def Flow.andThen (f : Flow) (g : State → Flow) : Flow :=
  match f with
  | .go s => g s
  | .stop s => .stop s

/-- The state a turn leaves, whether the step completed or not: every such state is a next state (00_scope.md R10;
log 5). -/
def Flow.outcome : Flow → Host.Outcome State Fault Refusal
  | .go s => .next s
  | .stop s => .next s

/-- Halt phase: `halted <- true`, `pc` unchanged (40_engine.md R77). -/
def haltPhase (s : State) : Flow := .go { s with halted := true }

/-- Function fall-through: `pc <- pc + 1` (40_engine.md R78). -/
def fallThrough (s : State) : Flow := .go { s with pc := s.pc + 1 }

end Sys2Proof.Machine
end

