-- ==== Sys2Proof/Machine/Operands.lean ====
section
/-! DEFINITION. The one operand form, an absolute cell index: its checks (40_engine.md R73, R74), and the input and
output conversions and phases (20_memory.md R40 to R43, 40_engine.md R75, R76). -/

namespace Sys2Proof.Machine

/-- The check of an operand value against `ADDR_MAX` (40_engine.md R73, R81). -/
def checkAddress (p : Params) (v : Nat) (s : State) : Flow :=
  if v ≤ p.addrMax then .go s else .stop (takeFault .addressRange s)

/-- Whether a write to `x` finds a store entry (40_engine.md R74). -/
def hasRoom (p : Params) (x : Nat) (s : State) : Bool :=
  decide (x ∈ s.footprint) || decide (s.footprint.length < p.storeCap)

/-- The store capacity check (40_engine.md R74). -/
def checkRoom (p : Params) (x : Nat) (s : State) : Flow :=
  if hasRoom p x s then .go s else .stop (takeFault .storeFull s)

/-- `zext_8`: the byte read as unsigned (00_scope.md R8). -/
def zeroExtend (x : Byte) : Int := x.toNat

/-- `sext_8`: the byte read as two's complement (00_scope.md R8). -/
def signExtend (x : Byte) : Int := x.toInt

/-- The value an input phase writes (20_memory.md R41). -/
def inputValue (p : Params) : InAnswer → Int
  | .eoi => 0
  | .byte x =>
    match p.inExt with
    | .zero => zeroExtend x
    | .sign => signExtend x

/-- `trunc8`: the low 8 bits of a cell's two's-complement form (00_scope.md R8, 20_memory.md R43). -/
def trunc8 (v : Int) : Byte := BitVec.ofInt 8 v

/-- Input phase (40_engine.md R75). While the source has not answered the step waits in `WAIT_IN` (log 3); its answer is
taken, converted and written, and the step goes on. -/
def inputPhase (p : Params) (a : Nat) (s : State) : Flow :=
  match s.input with
  | [] => .stop { s with seq := .waitIn }
  | x :: rest => .go (memWrite a (inputValue p x) { s with input := rest, seq := .loop })

/-- Output phase (40_engine.md R76). While the sink does not acknowledge the step waits in `WAIT_OUT` (log 3); once it
does, the byte is observable and the step goes on. -/
def outputPhase (b : Nat) (s : State) : Flow :=
  if s.sinkReady then .go { s with output := s.output ++ [trunc8 (memRead s b)], seq := .loop }
  else .stop { s with seq := .waitOut }

end Sys2Proof.Machine
end

