-- ==== Sys2Proof/Machine/InOut.lean ====
section
/-! DEFINITION. The seven function classes (41_instruction_classes.md R89 to R95). Each class has the part of its step
from the input or output phase on, which a step that waited takes up again (60_exceptions.md R111; log 3), and the whole
step. -/

namespace Sys2Proof.Machine

/-! ### HALT (R89) -/

/-- `HALT`, which no parameter bears on (R89). -/
def haltStep (s : State) : Host.Outcome State Fault Refusal := (haltPhase (countFetch s)).outcome

/-- `HALT` on this hardware: the operand values are ignored (R89). -/
def execHalt (_a _b _c : Nat) (s : State) : Host.Outcome State Fault Refusal := haltStep s

/-! ### OUT (R90) -/

/-- `OUT b` from its output phase on. -/
def outFromOutput (b : Nat) (s : State) : Flow := (outputPhase b s).andThen fallThrough

/-- `OUT b` under any parameters (R90). -/
def outWith (p : Params) (b : Nat) (s : State) : Host.Outcome State Fault Refusal :=
  ((checkAddress p b (countFetch s)).andThen (outFromOutput b)).outcome

/-- `OUT b` on this hardware (R90). -/
def execOut (_a b _c : Nat) (s : State) : Host.Outcome State Fault Refusal := outWith Config.hw b s

/-! ### OUT_HALT (R91) -/

/-- `OUT_HALT b` from its output phase on. -/
def outHaltFromOutput (b : Nat) (s : State) : Flow := (outputPhase b s).andThen haltPhase

/-- `OUT_HALT b` under any parameters (R91). -/
def outHaltWith (p : Params) (b : Nat) (s : State) : Host.Outcome State Fault Refusal :=
  ((checkAddress p b (countFetch s)).andThen (outHaltFromOutput b)).outcome

/-- `OUT_HALT b` on this hardware (R91). -/
def execOutHalt (_a b _c : Nat) (s : State) : Host.Outcome State Fault Refusal := outHaltWith Config.hw b s

/-! ### IN (R92) -/

/-- `IN a` from its input phase on. -/
def inpFromInput (p : Params) (a : Nat) (s : State) : Flow := (inputPhase p a s).andThen fallThrough

/-- `IN a` under any parameters (R92). -/
def inpWith (p : Params) (a : Nat) (s : State) : Host.Outcome State Fault Refusal :=
  (((checkAddress p a (countFetch s)).andThen (checkRoom p a)).andThen (inpFromInput p a)).outcome

/-- `IN a` on this hardware (R92). -/
def execInp (a _b _c : Nat) (s : State) : Host.Outcome State Fault Refusal := inpWith Config.hw a s

/-! ### IN_HALT (R93) -/

/-- `IN_HALT a` from its input phase on. -/
def inpHaltFromInput (p : Params) (a : Nat) (s : State) : Flow := (inputPhase p a s).andThen haltPhase

/-- `IN_HALT a` under any parameters (R93). -/
def inpHaltWith (p : Params) (a : Nat) (s : State) : Host.Outcome State Fault Refusal :=
  (((checkAddress p a (countFetch s)).andThen (checkRoom p a)).andThen (inpHaltFromInput p a)).outcome

/-- `IN_HALT a` on this hardware (R93). -/
def execInpHalt (a _b _c : Nat) (s : State) : Host.Outcome State Fault Refusal := inpHaltWith Config.hw a s

/-! ### IN_OUT (R94) -/

/-- `IN_OUT a b` from its output phase on. -/
def inpOutFromOutput (b : Nat) (s : State) : Flow := (outputPhase b s).andThen fallThrough

/-- `IN_OUT a b` from its input phase on. -/
def inpOutFromInput (p : Params) (a b : Nat) (s : State) : Flow := (inputPhase p a s).andThen (inpOutFromOutput b)

/-- `IN_OUT a b` under any parameters (R94). -/
def inpOutWith (p : Params) (a b : Nat) (s : State) : Host.Outcome State Fault Refusal :=
  ((((checkAddress p a (countFetch s)).andThen (checkAddress p b)).andThen (checkRoom p a)).andThen
    (inpOutFromInput p a b)).outcome

/-- `IN_OUT a b` on this hardware (R94). -/
def execInpOut (a b _c : Nat) (s : State) : Host.Outcome State Fault Refusal := inpOutWith Config.hw a b s

/-! ### IN_OUT_HALT (R95) -/

/-- `IN_OUT_HALT a b` from its output phase on. -/
def inpOutHaltFromOutput (b : Nat) (s : State) : Flow := (outputPhase b s).andThen haltPhase

/-- `IN_OUT_HALT a b` from its input phase on. -/
def inpOutHaltFromInput (p : Params) (a b : Nat) (s : State) : Flow :=
  (inputPhase p a s).andThen (inpOutHaltFromOutput b)

/-- `IN_OUT_HALT a b` under any parameters (R95). -/
def inpOutHaltWith (p : Params) (a b : Nat) (s : State) : Host.Outcome State Fault Refusal :=
  ((((checkAddress p a (countFetch s)).andThen (checkAddress p b)).andThen (checkRoom p a)).andThen
    (inpOutHaltFromInput p a b)).outcome

/-- `IN_OUT_HALT a b` on this hardware (R95). -/
def execInpOutHalt (a b _c : Nat) (s : State) : Host.Outcome State Fault Refusal := inpOutHaltWith Config.hw a b s

/-! ### Steps that waited -/

/-- The rest of a step that waits in `WAIT_IN`, for the classes that have an input phase (40_engine.md R75). -/
def resumeInput (p : Params) (i : Instr) (s : State) : Option Flow :=
  match i with
  | .subleq _ _ _ => none
  | .halt _ _ _ => none
  | .out _ _ _ => none
  | .outHalt _ _ _ => none
  | .inp a _ _ => some (inpFromInput p a s)
  | .inpHalt a _ _ => some (inpHaltFromInput p a s)
  | .inpOut a b _ => some (inpOutFromInput p a b s)
  | .inpOutHalt a b _ => some (inpOutHaltFromInput p a b s)

/-- The rest of a step that waits in `WAIT_OUT`, for the classes that have an output phase (40_engine.md R76). -/
def resumeOutput (i : Instr) (s : State) : Option Flow :=
  match i with
  | .subleq _ _ _ => none
  | .halt _ _ _ => none
  | .out _ b _ => some (outFromOutput b s)
  | .outHalt _ b _ => some (outHaltFromOutput b s)
  | .inp _ _ _ => none
  | .inpHalt _ _ _ => none
  | .inpOut _ b _ => some (inpOutFromOutput b s)
  | .inpOutHalt _ b _ => some (inpOutHaltFromOutput b s)

end Sys2Proof.Machine
end

