-- ==== Sys2Proof/Machine/Flags.lean ====
section
/-! DEFINITION. The core has no flags and keeps no condition (10_state.md R13). What a Subleq step computes and uses at
once stands here: the exact difference, its overflow, and the branch condition (40_engine.md R79 to R82). -/

namespace Sys2Proof.Machine

/-- The exact integer difference `valB - valA` (40_engine.md R79). -/
def difference (valA valB : Int) : Int := valB - valA

/-- The exact result lies outside `[CELL_MIN, CELL_MAX]` (40_engine.md R80). -/
def overflows (p : Params) (r : Int) : Bool := decide (r < p.cellMin) || decide (p.cellMax < r)

/-- The two's-complement wrap of R80. -/
def wrapResult (p : Params) (r : Int) : Int := (r - p.cellMin) % ((2 ^ p.cellW : Nat) : Int) + p.cellMin

/-- The cell the step writes, or none where `OVERFLOW_MODE = FAULT` raises `ArithOverflow` (40_engine.md R80). -/
def narrowResult (p : Params) (r : Int) : Option Int :=
  if overflows p r then
    match p.overflowMode with
    | .fault => none
    | .wrap => some (wrapResult p r)
  else some r

/-- `taken <- (r <= 0)`, signed (40_engine.md R81). -/
def branchTaken (r : Int) : Bool := decide (r ≤ 0)

end Sys2Proof.Machine
end

