-- ==== Sys2Proof/Machine/Subleq.lean ====
section
/-! DEFINITION. The Subleq class (41_instruction_classes.md R88). -/

namespace Sys2Proof.Machine

/-- `c.value` is checked only when the branch is taken (40_engine.md R81). -/
def checkTarget (p : Params) (c : Nat) (r : Int) (s : State) : Flow :=
  if branchTaken r then checkAddress p c s else .go s

/-- Where the program counter goes: an absolute index, or the next instruction (40_engine.md R81). -/
def branchPc (c : Nat) (r : Int) (s : State) : Int :=
  if branchTaken r then c else s.pc + 1

/-- The write-back and the new program counter (40_engine.md R81). -/
def writeBack (b c : Nat) (r : Int) (s : State) : Flow :=
  .go { memWrite b r s with pc := branchPc c r s }

/-- Subleq arithmetic, branch and write-back (40_engine.md R79 to R81). -/
def subtractAndBranch (p : Params) (a b c : Nat) (s : State) : Flow :=
  match narrowResult p (difference (memRead s a) (memRead s b)) with
  | none => .stop (takeFault .arithOverflow s)
  | some r => ((checkTarget p c r s).andThen (checkRoom p b)).andThen (writeBack b c r)

/-- `SUBLEQ a b c` under any parameters (R88). -/
def subleqWith (p : Params) (a b c : Nat) (s : State) : Host.Outcome State Fault Refusal :=
  (((checkAddress p a (countFetch s)).andThen (checkAddress p b)).andThen (subtractAndBranch p a b c)).outcome

/-- `SUBLEQ a b c` on this hardware (R88). -/
def execSubleq (a b c : Nat) (s : State) : Host.Outcome State Fault Refusal := subleqWith Config.hw a b c s

end Sys2Proof.Machine
end

