-- ==== Sys2Proof/Machine/Classes.lean ====
section
/-! DEFINITION. One engine step, class by class, under any parameters (00_scope.md R5; log 1). -/

namespace Sys2Proof.Machine

/-- The step of an instruction under the given parameters; `exec` is it under this hardware's. -/
def execWith (p : Params) (i : Instr) (s : State) : Host.Outcome State Fault Refusal :=
  match i with
  | .subleq a b c => subleqWith p a b c s
  | .halt _ _ _ => haltStep s
  | .out _ b _ => outWith p b s
  | .outHalt _ b _ => outHaltWith p b s
  | .inp a _ _ => inpWith p a s
  | .inpHalt a _ _ => inpHaltWith p a s
  | .inpOut a b _ => inpOutWith p a b s
  | .inpOutHalt a b _ => inpOutHaltWith p a b s

end Sys2Proof.Machine
end

