-- ==== Sys2Proof/Machine/Dispatch.lean ====
section
/-! DEFINITION. One engine step of the fetched instruction, class by class (40_engine.md R71). -/

namespace Sys2Proof.Machine

-- exec i s: the step of instruction i at state s, from its fetch on (its count is R72's).
def exec (i : Instr) (s : State) : Host.Outcome State Fault Refusal :=
  match i with
  | .subleq a b c => Sys2Proof.Machine.execSubleq a b c s
  | .halt a b c => Sys2Proof.Machine.execHalt a b c s
  | .out a b c => Sys2Proof.Machine.execOut a b c s
  | .outHalt a b c => Sys2Proof.Machine.execOutHalt a b c s
  | .inp a b c => Sys2Proof.Machine.execInp a b c s
  | .inpHalt a b c => Sys2Proof.Machine.execInpHalt a b c s
  | .inpOut a b c => Sys2Proof.Machine.execInpOut a b c s
  | .inpOutHalt a b c => Sys2Proof.Machine.execInpOutHalt a b c s

end Sys2Proof.Machine
end

