-- ==== Sys2Proof/Machine/HostCommands.lean ====
section
/-! DEFINITION. The host's commands (60_exceptions.md R108) and LOAD, the core's reset (70_reset_and_hazards.md R112). -/

namespace Sys2Proof.Machine

/-- What the host gets back is kept in order (log 2). -/
def answerHost (r : Reply) (s : State) : State := { s with replies := s.replies ++ [r] }

/-- A command whose precondition fails: no effect (00_scope.md R10, 60_exceptions.md R108; log 6). -/
def refuseCommand (s : State) : State := answerHost .refused s

/-- LOAD once accepted: every state at its reset value, then the program decoded, or the load error recorded
(R112, 60_exceptions.md R97). -/
def loadProgram (p : Params) (source : List Char) (s : State) : State :=
  match decodeSource p source with
  | .ok es => { s.cleared with irf := es, ls := .loaded }
  | .error e => { s.cleared with ls := .loadFailed, tr := loadErrorReason e }

/-- `LOAD(source)` (R108, R112). -/
def hostLoad (p : Params) (source : List Char) (s : State) : State :=
  if s.seq = .idle then
    let t := loadProgram p source s
    answerHost (.loadDone t.ls t.tr) t
  else refuseCommand s

/-- `RUN`: enters the run loop (R108, 40_engine.md R83); what it gives back comes when the loop is left. -/
def hostRun (s : State) : State :=
  if s.ls = .loaded ∧ s.seq = .idle then { s with seq := .loop } else refuseCommand s

/-- `STOP`: latched, and given nothing back; refused while idle (R108, 40_engine.md R85). -/
def hostStop (s : State) : State := if s.seq = .idle then refuseCommand s else { s with stopReq := true }

/-- `instruction_count` at the last step boundary: a step that waits has been counted at its fetch (R72, 93 I23;
log 7). -/
def boundaryCount (s : State) : Nat :=
  match s.seq with
  | .idle => s.instructionCount
  | .loop => s.instructionCount
  | .waitIn => s.instructionCount - 1
  | .waitOut => s.instructionCount - 1

/-- `SEQ` at the last step boundary (log 7). -/
def boundarySeq (s : State) : SeqState :=
  match s.seq with
  | .idle => .idle
  | .loop => .loop
  | .waitIn => .loop
  | .waitOut => .loop

/-- `READ_STATUS`: the values of the last step boundary (R108). -/
def hostReadStatus (s : State) : State :=
  answerHost (.status s.ls s.tr s.halted s.pc (boundaryCount s) (boundarySeq s)) s

/-- `READ_MEM(x)` (R108). -/
def hostReadMem (p : Params) (x : Int) (s : State) : State :=
  if s.seq = .idle ∧ 0 ≤ x ∧ x ≤ p.addrMax then answerHost (.cell (memRead s x.toNat)) s else refuseCommand s

/-- A host command has its effect or is refused (R108). -/
def hostCommand (p : Params) (cmd : HostCommand) (s : State) : State :=
  match cmd with
  | .load source => hostLoad p source s
  | .run => hostRun s
  | .stop => hostStop s
  | .readStatus => hostReadStatus s
  | .readMem x => hostReadMem p x s

end Sys2Proof.Machine
end

