-- ==== Sys2Proof/Machine/RunLoop.lean ====
section
/-! DEFINITION. The run loop (40_engine.md R83 to R86): one turn of the core, under any parameters. The step of an
instruction is an argument: `exec` on this hardware, `execWith p` under other parameters (log 1). -/

namespace Sys2Proof.Machine

/-- The tests of the run loop before a step, in R83's order: what ends the run here, or none where a step is issued. -/
def loopTest (p : Params) (s : State) : Option State :=
  if s.tr ≠ .none then some (leaveLoop s)
  else if s.halted then some (endRun .haltInstruction s)
  else if !pcInRange s then some (endRun .programCounterOutOfRange s)
  else if p.cap ≤ s.instructionCount then some (endRun .instructionCapExceeded s)
  else if s.stopReq then some (leaveLoop s)
  else none

/-- One round of the run loop: a test ends the run, or the instruction at `pc` has its step (40_engine.md R71, R83). -/
def loopTurn (p : Params) (run : Instr → State → Host.Outcome State Fault Refusal) (s : State) :
    Host.Outcome State Fault Refusal :=
  match loopTest p s with
  | some t => .next t
  | none =>
    match fetchEntry s with
    | some e => run e.toInstr s
    | none => .fault .noStepInProgress

/-- A step that waited goes on (60_exceptions.md R111). -/
def resumeStep (rest : Instr → State → Option Flow) (s : State) : Host.Outcome State Fault Refusal :=
  match fetchEntry s with
  | some e =>
    match rest e.toInstr s with
    | some f => f.outcome
    | none => .fault .noStepInProgress
  | none => .fault .noStepInProgress

/-- One turn of the core, by `SEQ` (10_state.md R23): idle, it waits for the host; in the loop, one round; in a wait
state, the step that waits goes on if its collaborator has answered (log 4). -/
def coreTurn (p : Params) (run : Instr → State → Host.Outcome State Fault Refusal) (s : State) :
    Host.Outcome State Fault Refusal :=
  match s.seq with
  | .idle => .next s
  | .loop => loopTurn p run s
  | .waitIn => resumeStep (resumeInput p) s
  | .waitOut => resumeStep resumeOutput s

end Sys2Proof.Machine
end

