-- ==== Sys2Proof/Machine/Outside.lean ====
section
/-! DEFINITION. One turn of the whole machine: the first outside event of the script, or the core when there is none
(10_state.md R25; log 2, log 4). Beside it, how the host's checks place an instruction. -/

namespace Sys2Proof.Machine

/-- What one outside event does, in the state from whose script it was taken. -/
def eventTurn (p : Params) (run : Instr → State → Host.Outcome State Fault Refusal) (e : Event) (s : State) :
    Host.Outcome State Fault Refusal :=
  match e with
  | .core => coreTurn p run s
  | .host cmd => .next (hostCommand p cmd s)
  | .inputAnswer x => .next { s with input := s.input ++ [x] }
  | .sinkReady r => .next { s with sinkReady := r }

/-- One turn: the first event of the script, or the core. -/
def machineTurn (p : Params) (run : Instr → State → Host.Outcome State Fault Refusal) (s : State) :
    Host.Outcome State Fault Refusal :=
  match s.script with
  | [] => coreTurn p run s
  | e :: rest => eventTurn p run e { s with script := rest }

/-- The state in which the next turn is the step of the given entry: the entry stands at `pc` (at index 0 of a program
of its own where `pc` is outside the IRF), the program is loaded and running, and nothing outside comes first (log 11).
-/
def placeEntry (e : Entry) (s : State) : State :=
  { s with
    irf              := if pcInRange s then s.irf.set s.pc.toNat e else [e]
    pc               := if pcInRange s then s.pc else 0
    halted           := false
    instructionCount := if s.instructionCount < Config.hw.cap then s.instructionCount else 0
    tr               := .none
    ls               := .loaded
    seq              := .loop
    stopReq          := false
    script           := [] }

/-- The word of the opcode table, decoded, placed where the next step fetches (log 10, log 11). -/
def placeTableWord (w : Nat) (s : State) : State :=
  match decodeOne (tableBits w) with
  | some e => placeEntry e s
  | none => s

end Sys2Proof.Machine
end

