-- ==== Sys2Proof/Machine/Step.lean ====
section
/-! DEFINITION. The step of the whole machine, and where the host's checks place an instruction. -/

namespace Sys2Proof.Machine

/-- One step of this hardware's machine (log 4). -/
def step (s : State) : Host.Outcome State Fault Refusal := machineTurn Config.hw exec s

/-- One step of the machine under any parameters (00_scope.md R5; log 1): `step` is it under `Config.hw`. -/
def stepWith (p : Params) (s : State) : Host.Outcome State Fault Refusal := machineTurn p (execWith p) s

/-- The state whose next step fetches and runs the instruction of an opcode-table word (log 10, log 11). -/
def State.withFetchWord (s : State) (_nbits w : Nat) : State := placeTableWord w s

end Sys2Proof.Machine
end

