-- ==== Sys2Proof/Safety.lean ====
section
/-! DEFINITION. What counts as a safe state and a safe step, in the terms the statements use: the invariant of the core,
and the frames of a step. -/

namespace Sys2Proof.Machine

/-- What no engine step touches, faulting steps apart: the IRF (20_memory.md R45), `TR`, `LS`, `STOP_REQ`, and the
outside world but for the one answer or byte of the step. -/
structure SameControl (s t : State) : Prop where
  irf       : t.irf = s.irf
  tr        : t.tr = s.tr
  ls        : t.ls = s.ls
  stopReq   : t.stopReq = s.stopReq
  script    : t.script = s.script
  sinkReady : t.sinkReady = s.sinkReady
  replies   : t.replies = s.replies

/-- What a step that writes no cell leaves: the store and the footprint. -/
structure SameStore (s t : State) : Prop where
  cells     : ∀ x, memRead t x = memRead s x
  footprint : t.footprint = s.footprint

/-- What a step that writes the cell at `x` leaves of the store and the footprint (20_memory.md R31). -/
structure SameStoreBut (x : Nat) (s t : State) : Prop where
  cells     : ∀ y, y ≠ x → memRead t y = memRead s y
  footprint : ∀ y, y ∈ t.footprint ↔ y = x ∨ y ∈ s.footprint

/-- What a fault records and leaves (60_exceptions.md R98, R103), from the state `s` before the step to `t`. -/
structure FaultedStep (kind : FaultKind) (s t : State) : Prop where
  tr        : t.tr = kind.reason
  count     : t.instructionCount = s.instructionCount + 1
  seq       : t.seq = .idle
  stopReq   : t.stopReq = false
  replies   : t.replies = s.replies ++ [.runReturned kind.reason]
  pc        : t.pc = s.pc
  mem       : t.mem = s.mem
  footprint : t.footprint = s.footprint
  halted    : t.halted = s.halted
  input     : t.input = s.input
  output    : t.output = s.output
  irf       : t.irf = s.irf
  ls        : t.ls = s.ls
  script    : t.script = s.script
  sinkReady : t.sinkReady = s.sinkReady

/-- The integer an input phase writes on this hardware: 0 for the end of input, else the byte read as unsigned
(20_memory.md R41, `IN_EXT = ZERO`). -/
def answerInt : InAnswer → Int
  | .eoi => 0
  | .byte x => x.toNat

/-- The byte an output phase writes for a cell `v`: `v mod 256` (00_scope.md R8, 20_memory.md R43). -/
def lowByte (v : Int) : Byte := BitVec.ofNat 8 (v % 256).toNat

/-- A write to `x` finds a store entry on this hardware (40_engine.md R74). -/
def RoomFor (x : Nat) (s : State) : Prop := x ∈ s.footprint ∨ s.footprint.length < Config.hw.storeCap

/-- The exact difference of a Subleq step (40_engine.md R79). -/
def exactResult (a b : Nat) (s : State) : Int := memRead s b - memRead s a

/-- The exact difference fits a cell of this hardware (40_engine.md R80). -/
abbrev Fits (r : Int) : Prop := IsCell Config.hw r

/-- The state after the run loop ended with a reason (40_engine.md R83, R84). -/
def loopExit (r : TermReason) (s : State) : State :=
  { s with tr := r, stopReq := false, seq := .idle, replies := s.replies ++ [.runReturned r] }

/-- The precondition of a host command (60_exceptions.md R108). -/
def commandAccepted (s : State) : HostCommand → Prop
  | .load _ => s.seq = .idle
  | .run => s.ls = .loaded ∧ s.seq = .idle
  | .stop => s.seq ≠ .idle
  | .readStatus => True
  | .readMem x => s.seq = .idle ∧ 0 ≤ x ∧ x ≤ Config.hw.addrMax

/-- A step at `s` is issued: what 40_engine.md R71 asks, and no pending STOP (R83). -/
structure StepIssued (s : State) : Prop where
  ls      : s.ls = .loaded
  seq     : s.seq = .loop
  tr      : s.tr = .none
  halted  : s.halted = false
  pcLow   : 0 ≤ s.pc
  pcHigh  : s.pc < s.irf.length
  count   : s.instructionCount < Config.hw.cap
  stopReq : s.stopReq = false

/-- The operand `a` of an entry is used as a data address (40_engine.md R73). -/
def usesA (e : Entry) : Bool := e.a.hasFunction || e.selector == 0

/-- The operand `b` of an entry is used as a data address (40_engine.md R73). -/
def usesB (e : Entry) : Bool := e.b.hasFunction || e.selector == 0

/-- A step that waits in `WAIT_IN` is the step of an input class whose checks have passed (40_engine.md R73, R75). -/
def WaitsForInput (p : Params) (s : State) : Prop :=
  s.tr = .none ∧ s.halted = false ∧ 0 < s.instructionCount ∧
  ∃ e, fetchEntry s = some e ∧ e.a.hasFunction = true ∧ e.a.value ≤ p.addrMax ∧
    (e.b.hasFunction = true → e.b.value ≤ p.addrMax)

/-- A step that waits in `WAIT_OUT` is the step of an output class whose checks have passed (40_engine.md R73, R76). -/
def WaitsForSink (p : Params) (s : State) : Prop :=
  s.tr = .none ∧ s.halted = false ∧ 0 < s.instructionCount ∧
  ∃ e, fetchEntry s = some e ∧ e.b.hasFunction = true ∧ e.b.value ≤ p.addrMax

/-- The invariant of the core under the given parameters. -/
structure Inv (p : Params) (s : State) : Prop where
  /-- The store is in canonical form. -/
  memWf : Memory.wf s.mem
  /-- Every listed cell has a data address and holds a `Cell` (10_state.md R16). -/
  memInSpace : Memory.inSpace p s.mem
  /-- The footprint is a set of data addresses (10_state.md R17). -/
  footprintWf : Footprint.wf p s.footprint
  /-- A cell that does not read 0 was written (10_state.md R16, R17). -/
  writtenCells : ∀ x ∈ s.mem, x.1 ∈ s.footprint
  /-- The program fits the IRF (10_state.md R14). -/
  irfFits : s.irf.length ≤ p.irfCap
  /-- `0 <= pc <= ADDR_MAX` (40_engine.md R87). -/
  pcBounds : 0 ≤ s.pc ∧ s.pc ≤ p.addrMax
  /-- `instruction_count` never exceeds `CAP` (10_state.md R20). -/
  countCap : s.instructionCount ≤ p.cap
  /-- Nothing has run before a LOAD succeeded (10_state.md R22, 60_exceptions.md R97). -/
  notLoaded : s.ls ≠ .loaded → s.irf = [] ∧ s.mem = [] ∧ s.footprint = [] ∧ s.pc = 0 ∧ s.halted = false ∧
    s.instructionCount = 0 ∧ s.seq = .idle
  /-- Before the first LOAD `TR` is 0 (70_reset_and_hazards.md R112). -/
  unloaded : s.ls = .unloaded → s.tr = .none
  /-- `TR` holds a load error exactly after a failed LOAD (60_exceptions.md R97). -/
  loadFailed : s.ls = .loadFailed ↔ s.tr = .unexpectedEndOfBitstream ∨ s.tr = .programTooLong
  /-- A halted run is reported as such (40_engine.md R84, 60_exceptions.md R102). -/
  haltedReason : s.halted = true → s.tr = .none ∨ s.tr = .haltInstruction
  /-- `HaltInstruction` is reported of a halted run only (40_engine.md R84). -/
  reasonHalted : s.tr = .haltInstruction → s.halted = true
  /-- `ProgramCounterOutOfRange` is reported of an index outside the program only (40_engine.md R84). -/
  reasonPc : s.tr = .programCounterOutOfRange → pcInRange s = false
  /-- `InstructionCapExceeded` is reported at the cap only (40_engine.md R84). -/
  reasonCap : s.tr = .instructionCapExceeded → s.instructionCount = p.cap
  /-- `StoreFull` cannot occur with a `STORE_CAP` like this hardware's (40_engine.md R74). -/
  noStoreFull : p.addrMax < p.storeCap → s.tr ≠ .storeFull
  /-- A STOP is pending only while the run loop is active (40_engine.md R85). -/
  stopWhileRunning : s.stopReq = true → s.seq ≠ .idle
  /-- What a step in `WAIT_IN` is. -/
  waitIn : s.seq = .waitIn → WaitsForInput p s
  /-- What a step in `WAIT_OUT` is. -/
  waitOut : s.seq = .waitOut → WaitsForSink p s

/-- Any encoding of an address: linked segments, whatever their `s`, and a last one (30_encoding.md R50, R53, R65). -/
def addressForm (linked : List (Nat × Bool)) (lastNib : Nat) (f : Bool) : List Bool :=
  linked.flatMap (fun x => segmentBits x.1 x.2 true) ++ segmentBits lastNib f false

/-- No byte other than `0x00` will be read: the premise of 70_reset_and_hazards.md R115. -/
def OnlyZeroInput (s : State) : Prop :=
  (∀ x ∈ s.input, x = .eoi ∨ x = .byte 0) ∧ (∀ x, Event.inputAnswer x ∈ s.script → x = .eoi ∨ x = .byte 0)

/-- The next thing that happens is a LOAD. -/
def nextIsLoad (s : State) : Bool :=
  match s.script with
  | .host (.load _) :: _ => true
  | .host .run :: _ => false
  | .host .stop :: _ => false
  | .host .readStatus :: _ => false
  | .host (.readMem _) :: _ => false
  | .core :: _ => false
  | .inputAnswer _ :: _ => false
  | .sinkReady _ :: _ => false
  | [] => false

end Sys2Proof.Machine
end

