-- ==== Sys2Proof/Certificates/Slice0/Obligations.lean ====
section
/-! DEFINITION. The statements for the provers. Each formalises a rule of the spec, or rests on the sections its entry in
OBLIGATIONS.json cites. -/

open Sys2Proof Sys2Proof.Machine Sys2Proof.Config

/-! ### Parameters, reset, fetch -/

/-- The parameter table of 00_scope.md R5: what `CELL_W` makes of the cell range and `ADDR_MAX`, and this hardware's
column. Cells are exactly the integers of the range. -/
def Obligations.ParametersAreThisHardwares : Prop :=
  (∀ p : Params, p.cellMin = -2 ^ (p.cellW - 1) ∧ p.cellMax = 2 ^ (p.cellW - 1) - 1 ∧ (p.addrMax : Int) = p.cellMax) ∧
  hw.cellW = 32 ∧ hw.cellMin = -2147483648 ∧ hw.cellMax = 2147483647 ∧ hw.addrMax = 2147483647 ∧
  (∀ v : Int, IsCell hw v ↔ -2 ^ 31 ≤ v ∧ v < 2 ^ 31) ∧
  hw.cap = 1000000 ∧ hw.overflowMode = .fault ∧ hw.inExt = .zero ∧ hw.wsMode = .all ∧
  (∀ ch : Char, ch ∈ hw.wsSet ↔ ch.toNat = 0x20 ∨ (0x09 ≤ ch.toNat ∧ ch.toNat ≤ 0x0D)) ∧
  hw.danglingLink = .shift ∧ hw.irfCap = hw.addrMax ∧ hw.storeCap = hw.addrMax + 1

/-- 00_scope.md R5: the machine with every parameter an argument, at this hardware's values, is this hardware's machine,
step by step and instruction by instruction (log 1). -/
def Obligations.HardwareIsTheModelAtItsParameters : Prop :=
  (∀ (i : Instr) (s : State), exec i s = execWith hw i s) ∧ ∀ s : State, step s = stepWith hw s

/-- 70_reset_and_hazards.md R112: LOAD, accepted when `SEQ = IDLE`, gives every piece of state its reset value and then
decodes; on success the IRF holds the program and `LS = LOADED`, on a load error `LS = LOAD_FAILED`, `TR` is its code
and `N = 0`; power-on is the same with `LS = UNLOADED`. The host gets `LS` and `TR` (60_exceptions.md R108; that they are
kept in `replies` is the model's form, log 2). -/
def Obligations.LoadIsTheReset : Prop :=
  (∀ (s : State) (source : List Char) (rest : List Event), s.seq = .idle → s.script = .host (.load source) :: rest →
    ∃ t, step s = .next t ∧
      (∀ x, memRead t x = 0) ∧ t.mem = [] ∧ t.footprint = [] ∧ t.pc = 0 ∧ t.halted = false ∧
      t.instructionCount = 0 ∧ t.stopReq = false ∧ t.seq = .idle ∧
      (∀ es, decodeSource hw source = .ok es →
        t.irf = es ∧ programLength t = es.length ∧ t.ls = .loaded ∧ t.tr = .none) ∧
      (∀ e, decodeSource hw source = .error e →
        programLength t = 0 ∧ t.ls = .loadFailed ∧
        t.tr.code = (match e with | .unexpectedEndOfBitstream => 4 | .programTooLong => 5)) ∧
      t.replies = s.replies ++ [.loadDone t.ls t.tr]) ∧
  (programLength State.reset = 0 ∧ (∀ x, memRead State.reset x = 0) ∧ State.reset.footprint = [] ∧
    State.reset.pc = 0 ∧ State.reset.halted = false ∧ State.reset.instructionCount = 0 ∧
    State.reset.tr.code = 0 ∧ State.reset.ls = .unloaded ∧ State.reset.seq = .idle ∧ State.reset.stopReq = false)

/-- 40_engine.md R71, R72, R83: when the run loop issues a step, the machine's step is the step of the instruction that
`IRF[pc]` decodes to. The script is the model's form of who moves next (log 2, log 4). -/
def Obligations.StepRunsTheFetchedInstruction : Prop :=
  ∀ (s : State) (e : Entry), StepIssued s → s.irf[s.pc.toNat]? = some e →
    (s.script = [] → step s = exec e.toInstr s) ∧
    (∀ rest, s.script = .core :: rest → step s = exec e.toInstr { s with script := rest })

/-- 70_reset_and_hazards.md R113: the first step of the first RUN after LOAD fetches `IRF[0]`, in Running; an empty
program's first RUN issues no step and ends with `ProgramCounterOutOfRange` and a count of 0 (the spec's own inference
from R83). -/
def Obligations.FirstRunStartsAtIndexZero : Prop :=
  ∀ (s : State) (source : List Char), s.seq = .idle → s.script = [.host (.load source), .host .run] →
    (∀ e es, decodeSource hw source = .ok (e :: es) →
      ∃ t, Host.Core.run Sys2Proof.core 2 s = .next t ∧ t.irf = e :: es ∧ t.pc = 0 ∧ t.halted = false ∧
        t.instructionCount = 0 ∧ (∀ x, memRead t x = 0) ∧ step t = exec e.toInstr t) ∧
    (decodeSource hw source = .ok [] →
      ∃ t, Host.Core.run Sys2Proof.core 3 s = .next t ∧ t.tr = .programCounterOutOfRange ∧ t.instructionCount = 0 ∧
        t.pc = 0 ∧ t.seq = .idle ∧ t.input = s.input ∧ t.output = s.output)

/-! ### The eight classes: where each completes, its effect and its frame -/

/-- 40_engine.md R79 (with the branch and write-back of R81): both operands and a taken target in range, the exact
difference a cell, and a store entry found. -/
def Obligations.SubleqSubtractsAndBranches : Prop :=
  ∀ (a b c : Nat) (s : State), Memory.wf s.mem → a ≤ hw.addrMax → b ≤ hw.addrMax → Fits (exactResult a b s) →
    (exactResult a b s ≤ 0 → c ≤ hw.addrMax) → RoomFor b s →
    ∃ t, exec (.subleq a b c) s = .next t ∧
      memRead t b = exactResult a b s ∧ SameStoreBut b s t ∧
      (exactResult a b s ≤ 0 → t.pc = c) ∧ (0 < exactResult a b s → t.pc = s.pc + 1) ∧
      t.instructionCount = s.instructionCount + 1 ∧ t.halted = s.halted ∧ t.seq = s.seq ∧
      t.input = s.input ∧ t.output = s.output ∧ SameControl s t

/-- 41_instruction_classes.md R89: HALT sets `halted`, keeps `pc`, touches no cell and no collaborator, whatever its
operand values; the next test of the run loop reports `HaltInstruction`. -/
def Obligations.HaltStopsInPlace : Prop :=
  ∀ (a b c : Nat) (s : State), ∃ t, exec (.halt a b c) s = .next t ∧
    t.halted = true ∧ t.pc = s.pc ∧ SameStore s t ∧ t.mem = s.mem ∧ t.instructionCount = s.instructionCount + 1 ∧
    t.seq = s.seq ∧ t.input = s.input ∧ t.output = s.output ∧ SameControl s t ∧
    (s.seq = .loop → s.tr = .none → s.script = [] → ∃ u, step t = .next u ∧ u.tr = .haltInstruction ∧ u.seq = .idle)

/-- 41_instruction_classes.md R90: OUT writes the low 8 bits of the cell and goes on, once the sink acknowledges
(the model's `sinkReady`, log 3). -/
def Obligations.OutWritesTheLowByte : Prop :=
  ∀ (a b c : Nat) (s : State), b ≤ hw.addrMax → s.sinkReady = true →
    ∃ t, exec (.out a b c) s = .next t ∧
      t.output = s.output ++ [lowByte (memRead s b)] ∧ t.pc = s.pc + 1 ∧ t.halted = s.halted ∧
      SameStore s t ∧ t.instructionCount = s.instructionCount + 1 ∧ t.seq = .loop ∧ t.input = s.input ∧ SameControl s t

/-- 41_instruction_classes.md R91: OUT_HALT writes the byte, then halts in place. -/
def Obligations.OutHaltWritesThenHalts : Prop :=
  ∀ (a b c : Nat) (s : State), b ≤ hw.addrMax → s.sinkReady = true →
    ∃ t, exec (.outHalt a b c) s = .next t ∧
      t.output = s.output ++ [lowByte (memRead s b)] ∧ t.pc = s.pc ∧ t.halted = true ∧
      SameStore s t ∧ t.instructionCount = s.instructionCount + 1 ∧ t.seq = .loop ∧ t.input = s.input ∧ SameControl s t

/-- 41_instruction_classes.md R92: IN takes one answer of the source and writes it, and goes on. The answer is the head
of `input`, the model's form of the free draw (log 2). -/
def Obligations.InStoresTheAnswer : Prop :=
  ∀ (a b c : Nat) (s : State) (x : InAnswer) (rest : List InAnswer), Memory.wf s.mem → a ≤ hw.addrMax → RoomFor a s →
    s.input = x :: rest →
    ∃ t, exec (.inp a b c) s = .next t ∧
      memRead t a = answerInt x ∧ SameStoreBut a s t ∧ t.input = rest ∧ t.pc = s.pc + 1 ∧
      t.halted = s.halted ∧ t.instructionCount = s.instructionCount + 1 ∧ t.seq = .loop ∧ t.output = s.output ∧
      SameControl s t

/-- 41_instruction_classes.md R93: IN_HALT takes and writes the answer, then halts in place (input as in log 2). -/
def Obligations.InHaltStoresThenHalts : Prop :=
  ∀ (a b c : Nat) (s : State) (x : InAnswer) (rest : List InAnswer), Memory.wf s.mem → a ≤ hw.addrMax → RoomFor a s →
    s.input = x :: rest →
    ∃ t, exec (.inpHalt a b c) s = .next t ∧
      memRead t a = answerInt x ∧ SameStoreBut a s t ∧ t.input = rest ∧ t.pc = s.pc ∧
      t.halted = true ∧ t.instructionCount = s.instructionCount + 1 ∧ t.seq = .loop ∧ t.output = s.output ∧
      SameControl s t

/-- 41_instruction_classes.md R94, 20_memory.md R37: IN_OUT writes the answer, then outputs `M[b]` as that write left it
(the byte just read where `b` is `a`), and goes on (input as in log 2). -/
def Obligations.InOutStoresThenOutputs : Prop :=
  ∀ (a b c : Nat) (s : State) (x : InAnswer) (rest : List InAnswer), Memory.wf s.mem → a ≤ hw.addrMax → b ≤ hw.addrMax →
    RoomFor a s → s.input = x :: rest → s.sinkReady = true →
    ∃ t, exec (.inpOut a b c) s = .next t ∧
      memRead t a = answerInt x ∧ SameStoreBut a s t ∧ t.input = rest ∧
      t.output = s.output ++ [lowByte (if b = a then answerInt x else memRead s b)] ∧
      t.pc = s.pc + 1 ∧ t.halted = s.halted ∧ t.instructionCount = s.instructionCount + 1 ∧ t.seq = .loop ∧
      SameControl s t

/-- 41_instruction_classes.md R95: IN_OUT_HALT runs all three phases, in order (input as in log 2). -/
def Obligations.InOutHaltRunsAllPhases : Prop :=
  ∀ (a b c : Nat) (s : State) (x : InAnswer) (rest : List InAnswer), Memory.wf s.mem → a ≤ hw.addrMax → b ≤ hw.addrMax →
    RoomFor a s → s.input = x :: rest → s.sinkReady = true →
    ∃ t, exec (.inpOutHalt a b c) s = .next t ∧
      memRead t a = answerInt x ∧ SameStoreBut a s t ∧ t.input = rest ∧
      t.output = s.output ++ [lowByte (if b = a then answerInt x else memRead s b)] ∧
      t.pc = s.pc ∧ t.halted = true ∧ t.instructionCount = s.instructionCount + 1 ∧ t.seq = .loop ∧
      SameControl s t

/-- 30_encoding.md R64: the operand values a function class does not use may be anything. -/
def Obligations.UnusedOperandsAreIgnored : Prop :=
  ∀ (a b c a' b' c' : Nat) (s : State),
    exec (.halt a b c) s = exec (.halt a' b' c') s ∧
    exec (.out a b c) s = exec (.out a' b c') s ∧
    exec (.outHalt a b c) s = exec (.outHalt a' b c') s ∧
    exec (.inp a b c) s = exec (.inp a b' c') s ∧
    exec (.inpHalt a b c) s = exec (.inpHalt a b' c') s ∧
    exec (.inpOut a b c) s = exec (.inpOut a b c') s ∧
    exec (.inpOutHalt a b c) s = exec (.inpOutHalt a b c') s

/-- 40_engine.md R77: the halt phase of every class with `fc`: `halted` is set, `pc` is not changed, and the input and
output phases of the same step have been performed; no further phase has, so no cell but the input phase's is written,
and that cell holds what the input phase wrote; `c.value` is not read. A step that neither faulted nor waits leaves
`SEQ = LOOP`. -/
def Obligations.HaltPhaseStopsInPlace : Prop :=
  ∀ (e : Entry) (s t : State), e.c.hasFunction = true → s.seq = .loop → Memory.wf s.mem →
    exec e.toInstr s = .next t → t.seq = .loop →
    t.halted = true ∧ t.pc = s.pc ∧ t.tr = s.tr ∧
    (e.a.hasFunction = true → ∃ x, s.input = x :: t.input ∧ memRead t e.a.value = answerInt x) ∧
    (e.a.hasFunction = false → t.input = s.input) ∧
    (e.b.hasFunction = true → t.output = s.output ++ [lowByte (memRead t e.b.value)]) ∧
    (e.b.hasFunction = false → t.output = s.output) ∧
    (∀ x, x ≠ e.a.value → memRead t x = memRead s x) ∧
    (e.a.hasFunction = false → ∀ x, memRead t x = memRead s x) ∧
    (∀ v, exec ({ e with c := ⟨v, true⟩ } : Entry).toInstr s = .next t)

/-- 40_engine.md R78: a step that had a function phase and did not halt does no arithmetic and goes to the next index;
`c.value` is not read. -/
def Obligations.FunctionClassesFallThrough : Prop :=
  ∀ (e : Entry) (s t : State), (e.a.hasFunction = true ∨ e.b.hasFunction = true) → e.c.hasFunction = false →
    Memory.wf s.mem → exec e.toInstr s = .next t → t.seq = .loop →
    t.pc = s.pc + 1 ∧ t.halted = s.halted ∧ (∀ x, x ≠ e.a.value → memRead t x = memRead s x) ∧
    (e.a.hasFunction = false → ∀ x, memRead t x = memRead s x) ∧
    (∀ v, exec ({ e with c := ⟨v, false⟩ } : Entry).toInstr s = .next t)

/-! ### Waiting for a collaborator -/

/-- 60_exceptions.md R111, 20_memory.md R40: a step with an input phase whose checks have passed waits in `WAIT_IN` while
the source has not answered; only its count has been taken. That an empty `input` means no answer is the model's
choice (log 3). -/
def Obligations.InputClassesWaitForAnAnswer : Prop :=
  ∀ (e : Entry) (s : State), e.a.hasFunction = true → e.a.value ≤ hw.addrMax →
    (e.b.hasFunction = true → e.b.value ≤ hw.addrMax) → RoomFor e.a.value s → s.input = [] →
    exec e.toInstr s = .next { s with instructionCount := s.instructionCount + 1, seq := .waitIn }

/-- 20_memory.md R42: a step with an output phase waits in `WAIT_OUT` while the sink does not acknowledge, its input
phase done and its halt phase not (the model's `sinkReady`, log 3). -/
def Obligations.OutputClassesWaitForTheSink : Prop :=
  ∀ (e : Entry) (s : State), e.b.hasFunction = true → e.b.value ≤ hw.addrMax → s.sinkReady = false →
    (e.a.hasFunction = false →
      exec e.toInstr s = .next { s with instructionCount := s.instructionCount + 1, seq := .waitOut }) ∧
    (∀ x rest, e.a.hasFunction = true → e.a.value ≤ hw.addrMax → RoomFor e.a.value s → Memory.wf s.mem →
      s.input = x :: rest →
      ∃ t, exec e.toInstr s = .next t ∧ t.seq = .waitOut ∧ memRead t e.a.value = answerInt x ∧
        SameStoreBut e.a.value s t ∧ t.input = rest ∧ t.output = s.output ∧ t.pc = s.pc ∧ t.halted = s.halted ∧
        t.instructionCount = s.instructionCount + 1 ∧ SameControl s t)

/-- 60_exceptions.md R111: a hold is lifted by its collaborator's answer alone and all state survives it: a step that
waited for an input answer ends as if the answer had been there at once (log 3). -/
def Obligations.HeldInputStepEndsAsUnheld : Prop :=
  ∀ (e : Entry) (s t : State) (x : InAnswer) (more : List InAnswer), fetchEntry s = some e →
    e.a.hasFunction = true → s.script = [] → s.input = [] → exec e.toInstr s = .next t → t.seq = .waitIn →
    step { t with input := x :: more } = exec e.toInstr { s with input := x :: more }

/-- 60_exceptions.md R111 for the sink: a step that waited for an acknowledgement ends as if the sink had been ready
(log 3). -/
def Obligations.HeldOutputStepEndsAsUnheld : Prop :=
  ∀ (e : Entry) (s t : State), fetchEntry s = some e → e.b.hasFunction = true → s.script = [] →
    s.sinkReady = false → exec e.toInstr s = .next t → t.seq = .waitOut →
    step { t with sinkReady := true } = exec e.toInstr { s with sinkReady := true }

/-- 93_implementation_defined.md I13, 60_exceptions.md R111: while its collaborator does not answer, a waiting step waits,
and nothing changes. (That an empty `input` and an unready `sinkReady` are such a wait is the model's choice, and what a
hold keeps its inference: log 3.) -/
def Obligations.UnansweredStepsWaitForEver : Prop :=
  ∀ (k : Nat) (s : State), s.script = [] →
    ((s.seq = .waitIn ∧ WaitsForInput hw s ∧ s.input = []) ∨
      (s.seq = .waitOut ∧ WaitsForSink hw s ∧ s.sinkReady = false)) →
    Host.Core.run Sys2Proof.core k s = .next s

/-! ### Faults -/

/-- 60_exceptions.md R98, R103, 40_engine.md R83: what a fault records, and that it ends the run with `SEQ = IDLE` and
`STOP_REQ = 0`. (That it is a next state in which RUN has returned, with the reply kept, is the model's form: log 2,
log 5.) -/
def Obligations.FaultingStepIsPrecise : Prop :=
  ∀ (i : Instr) (s t : State), s.tr = .none → exec i s = .next t → t.tr ≠ .none → ∃ kind, FaultedStep kind s t

/-- 40_engine.md R73: every operand value the step uses as a data address is checked, `a` and then `b`, before any
effect; a value it does not use is never checked. -/
def Obligations.UsedOperandsAreRangeChecked : Prop :=
  ∀ (e : Entry) (s : State),
    ((usesA e = true ∧ hw.addrMax < e.a.value ∨ usesB e = true ∧ hw.addrMax < e.b.value) →
      ∃ t, exec e.toInstr s = .next t ∧ FaultedStep .addressRange s t) ∧
    ((usesA e = true → e.a.value ≤ hw.addrMax) → (usesB e = true → e.b.value ≤ hw.addrMax) → e.selector ≠ 0 →
      RoomFor e.a.value s → ∃ t, exec e.toInstr s = .next t ∧ t.tr = s.tr)

/-- 40_engine.md R80, at every width: the range of the exact difference of two cells; outside the cell range, `FAULT`
(this hardware) raises `ArithOverflow` whatever the target and the store's room, with no effect, and `WRAP` takes the
two's-complement wrap, which is a cell. (A fault also ends the run, R83 and 60_exceptions.md R103; that it is a next state
with RUN's reply kept is the model's form, log 2 and log 5.) -/
def Obligations.OverflowFaultsOrWraps : Prop :=
  (∀ (p : Params) (a b : Nat) (s : State), IsCell p (memRead s a) → IsCell p (memRead s b) →
    p.cellMin - p.cellMax ≤ exactResult a b s ∧ exactResult a b s ≤ p.cellMax - p.cellMin) ∧
  (∀ (p : Params) (a b c : Nat) (s : State), a ≤ p.addrMax → b ≤ p.addrMax → ¬ IsCell p (exactResult a b s) →
    p.overflowMode = .fault → ∃ t, subleqWith p a b c s = .next t ∧ FaultedStep .arithOverflow s t) ∧
  (∀ (a b c : Nat) (s : State), a ≤ hw.addrMax → b ≤ hw.addrMax → ¬ Fits (exactResult a b s) →
    ∃ t, exec (.subleq a b c) s = .next t ∧ FaultedStep .arithOverflow s t) ∧
  (∀ (p : Params) (a b c : Nat) (s : State) (w : Int), a ≤ p.addrMax → b ≤ p.addrMax →
    ¬ IsCell p (exactResult a b s) → p.overflowMode = .wrap →
    w = (exactResult a b s - p.cellMin) % 2 ^ p.cellW + p.cellMin →
    (1 ≤ p.cellW → IsCell p w) ∧
    (w ≤ 0 → p.addrMax < c → ∃ t, subleqWith p a b c s = .next t ∧ FaultedStep .addressRange s t) ∧
    (Memory.wf s.mem → (w ≤ 0 → c ≤ p.addrMax) → hasRoom p b s = true →
      ∃ t, subleqWith p a b c s = .next t ∧ memRead t b = w ∧ SameStoreBut b s t ∧
        (w ≤ 0 → t.pc = c) ∧ (0 < w → t.pc = s.pc + 1) ∧ t.tr = s.tr ∧
        t.instructionCount = s.instructionCount + 1))

/-- 40_engine.md R81, 60_exceptions.md R101: a target above `ADDR_MAX` faults when the branch is taken, before the
capacity check, and is not looked at otherwise. -/
def Obligations.TargetIsCheckedOnlyWhenTaken : Prop :=
  (∀ (p : Params) (a b c : Nat) (s : State), a ≤ p.addrMax → b ≤ p.addrMax → IsCell p (exactResult a b s) →
    p.addrMax < c → exactResult a b s ≤ 0 →
    ∃ t, subleqWith p a b c s = .next t ∧ FaultedStep .addressRange s t) ∧
  (∀ (a b c : Nat) (s : State), a ≤ hw.addrMax → b ≤ hw.addrMax → Fits (exactResult a b s) → hw.addrMax < c →
    (exactResult a b s ≤ 0 → ∃ t, exec (.subleq a b c) s = .next t ∧ FaultedStep .addressRange s t) ∧
    (0 < exactResult a b s → RoomFor b s → ∃ t, exec (.subleq a b c) s = .next t ∧ t.tr = s.tr ∧ t.pc = s.pc + 1))

/-- 40_engine.md R74: a write that finds no store entry raises `StoreFull` before any effect; for the input phase after
the range checks and before the source is called, for Subleq after the subtraction and the target check. -/
def Obligations.FullStoreFaultsBeforeAnyEffect : Prop :=
  ∀ (p : Params) (a b c : Nat) (s : State), a ≤ p.addrMax → b ≤ p.addrMax →
    (a ∉ s.footprint → p.storeCap ≤ s.footprint.length →
      (∃ t, inpWith p a s = .next t ∧ FaultedStep .storeFull s t) ∧
      (∃ t, inpHaltWith p a s = .next t ∧ FaultedStep .storeFull s t) ∧
      (∃ t, inpOutWith p a b s = .next t ∧ FaultedStep .storeFull s t) ∧
      (∃ t, inpOutHaltWith p a b s = .next t ∧ FaultedStep .storeFull s t)) ∧
    (b ∉ s.footprint → p.storeCap ≤ s.footprint.length → IsCell p (exactResult a b s) →
      (exactResult a b s ≤ 0 → c ≤ p.addrMax) →
      ∃ t, subleqWith p a b c s = .next t ∧ FaultedStep .storeFull s t)

/-- 60_exceptions.md R96: the code of every event that ends a load or a run, and the event of each fault and load error.
-/
def Obligations.EventsHaveTheirCodes : Prop :=
  TermReason.none.code = 0 ∧ TermReason.haltInstruction.code = 1 ∧ TermReason.programCounterOutOfRange.code = 2 ∧
  TermReason.instructionCapExceeded.code = 3 ∧ (loadErrorReason .unexpectedEndOfBitstream).code = 4 ∧
  (loadErrorReason .programTooLong).code = 5 ∧ (FaultKind.reason .addressRange).code = 6 ∧
  (FaultKind.reason .arithOverflow).code = 7 ∧ (FaultKind.reason .storeFull).code = 8

/-- 40_engine.md R74, the spec's own inference: with this hardware's `STORE_CAP` the fault cannot occur. -/
def Obligations.StoreFullCannotOccur : Prop :=
  ∀ (i : Instr) (s t : State), Footprint.wf hw s.footprint → s.tr ≠ .storeFull → exec i s = .next t → t.tr ≠ .storeFull

/-! ### The run loop and the host -/

/-- 40_engine.md R83 to R86, with the tests in the order of 60_exceptions.md R102: the termination reasons are distinct codes,
written into `TR`, and a termination changes neither `halted`, `pc`, the store nor the count: only `TR`, `SEQ`,
`STOP_REQ`, and what RUN gives back (kept in `replies`, the model's form, log 2). -/
def Obligations.RunLoopTestsInOrder : Prop :=
  (TermReason.haltInstruction.code = 1 ∧ TermReason.programCounterOutOfRange.code = 2 ∧
    TermReason.instructionCapExceeded.code = 3) ∧
  ∀ s : State, s.script = [] → s.seq = .loop →
    (s.tr ≠ .none → step s = .next (loopExit s.tr s)) ∧
    (s.tr = .none → s.halted = true → step s = .next (loopExit .haltInstruction s)) ∧
    (s.tr = .none → s.halted = false → ¬ (0 ≤ s.pc ∧ s.pc < s.irf.length) →
      step s = .next (loopExit .programCounterOutOfRange s)) ∧
    (s.tr = .none → s.halted = false → 0 ≤ s.pc → s.pc < s.irf.length →
      1000000 ≤ s.instructionCount → step s = .next (loopExit .instructionCapExceeded s)) ∧
    (s.tr = .none → s.halted = false → 0 ≤ s.pc → s.pc < s.irf.length →
      s.instructionCount < 1000000 → s.stopReq = true → step s = .next (loopExit .none s))

/-- 40_engine.md R86: a RUN after a pause continues with the state the pause left, count included; a RUN after a
termination issues no step and leaves every state unchanged; a RUN that `LS` or `SEQ` forbids is refused (with the
reply `refused`, the model's choice, log 6). (The script and the replies are the model's, log 2; a
pending STOP while idle is no state a run reaches.) -/
def Obligations.RunAgainResumesOrStops : Prop :=
  ∀ s : State,
    (s.ls = .loaded → s.stopReq = false → s.seq = .idle → s.script = [.host .run] → s.tr ≠ .none →
      Host.Core.run Sys2Proof.core 2 s = .next { s with script := [], replies := s.replies ++ [.runReturned s.tr] }) ∧
    (s.ls = .loaded → s.stopReq = false → s.seq = .loop → s.script = [.host .stop, .core, .host .run] →
      s.tr = .none → s.halted = false → 0 ≤ s.pc → s.pc < s.irf.length → s.instructionCount < 1000000 →
      Host.Core.run Sys2Proof.core 3 s = .next { s with script := [], replies := s.replies ++ [.runReturned .none] }) ∧
    (s.ls ≠ .loaded ∨ s.seq ≠ .idle → ∀ rest, s.script = .host .run :: rest →
      step s = .next { s with script := rest, replies := s.replies ++ [.refused] })

/-- 60_exceptions.md R108: each host command has the effect of its row, and one whose precondition fails has none. (What
the host gets back is kept in `replies`, log 2; that a refused command gets the reply `refused` is the model's choice,
log 6; LOAD's effect is LoadIsTheReset.) -/
def Obligations.HostCommandsFollowTheirTable : Prop :=
  ∀ (s : State) (cmd : HostCommand) (rest : List Event), s.script = .host cmd :: rest →
    (¬ commandAccepted s cmd → step s = .next { s with script := rest, replies := s.replies ++ [.refused] }) ∧
    (commandAccepted s cmd → cmd = .run → step s = .next { s with script := rest, seq := .loop }) ∧
    (commandAccepted s cmd → cmd = .stop → step s = .next { s with script := rest, stopReq := true }) ∧
    (∀ x, commandAccepted s cmd → cmd = .readMem x →
      step s = .next { s with script := rest, replies := s.replies ++ [.cell (memRead s x.toNat)] }) ∧
    (cmd = .readStatus → s.seq = .idle ∨ s.seq = .loop →
      step s = .next { s with
        script := rest
        replies := s.replies ++ [.status s.ls s.tr s.halted s.pc s.instructionCount s.seq] }) ∧
    (∀ src, commandAccepted s cmd → cmd = .load src →
      ∃ t, step s = .next t ∧ t.replies = s.replies ++ [.loadDone t.ls t.tr] ∧ t.script = rest)

/-- 60_exceptions.md R108, 93_implementation_defined.md I23: READ_STATUS inside a step answers with the last step
boundary. That this is the count less one and `SEQ = LOOP` is the model's inference (log 7): the step that waits was
issued from a loop state, and that state's values are what the host gets. -/
def Obligations.StatusInsideAStepIsTheBoundarys : Prop :=
  ∀ (e : Entry) (s t : State) (rest : List Event), s.seq = .loop → exec e.toInstr s = .next t →
    (t.seq = .waitIn ∨ t.seq = .waitOut) →
    step { t with script := .host .readStatus :: rest } =
      .next { t with
        script := rest
        replies := t.replies ++ [.status s.ls s.tr s.halted s.pc s.instructionCount s.seq] }

/-- 40_engine.md R85: a STOP during a step takes effect after that step: a STOP while a step waits, for input or for the
sink, is latched, the step completes as it would have, and then the loop pauses with `TR = 0` unless a termination holds.
(The script is the model's form, log 2; a hold is log 3; the number of turns is log 4.) -/
def Obligations.StopTakesEffectAtTheBoundary : Prop :=
  ∀ (e : Entry) (s t u : State), StepIssued s → fetchEntry s = some e → step s = .next t →
    ((∃ x, s.script = [.core, .host .stop, .inputAnswer x] ∧ e.a.hasFunction = true ∧ s.input = [] ∧
        s.sinkReady = true ∧ t.seq = .waitIn ∧
        exec e.toInstr { s with script := [], input := [x] } = .next u) ∨
      (s.script = [.core, .host .stop, .sinkReady true] ∧ e.b.hasFunction = true ∧ s.sinkReady = false ∧
        t.seq = .waitOut ∧ exec e.toInstr { s with script := [], sinkReady := true } = .next u)) →
    Host.Core.run Sys2Proof.core 4 s = .next { u with stopReq := true } ∧
    (u.halted = false → 0 ≤ u.pc → u.pc < u.irf.length → u.instructionCount < 1000000 →
      Host.Core.run Sys2Proof.core 5 s = .next (loopExit .none u)) ∧
    (u.halted = true → Host.Core.run Sys2Proof.core 5 s = .next (loopExit .haltInstruction u))

/-- 40_engine.md R85, 20_memory.md R33: whatever its collaborator does, a waiting step goes on, or waits on, the same
whether or not a STOP is pending, and the STOP stays pending. (Holds as turns of the model: log 3, log 4.) -/
def Obligations.StopNeverDisturbsAWaitingStep : Prop :=
  ∀ (s t : State) (stop : Bool), s.seq = .waitIn ∨ s.seq = .waitOut → s.script = [] → step s = .next t →
    step { s with stopReq := stop } = .next { t with stopReq := stop }

/-! ### Whole-machine rules -/

/-- 10_state.md R21: once nonzero, `TR` changes by a new LOAD only (the spec's own inference from R84 and R103). -/
def Obligations.TerminationReasonIsSticky : Prop :=
  ∀ s t : State, nextIsLoad s = false → s.tr ≠ .none → step s = .next t → t.tr = s.tr

/-- 10_state.md R19: `halted` never resets but by a LOAD, and only the halt phase of a step whose `c` has its function
flag sets it. -/
def Obligations.HaltedIsSetByTheHaltPhaseOnly : Prop :=
  ∀ s t : State, nextIsLoad s = false → step s = .next t →
    (s.halted = true → t.halted = true) ∧
    (s.halted = false → t.halted = true → ∃ e, fetchEntry s = some e ∧ e.c.hasFunction = true ∧ t.pc = s.pc)

/-- 40_engine.md R70: once `halted` is true no further instruction executes. Inv rules out a step still in progress
(StepKeepsTheInvariant). -/
def Obligations.HaltedRunExecutesNothing : Prop :=
  ∀ s t : State, Inv hw s → s.halted = true → nextIsLoad s = false → step s = .next t →
    t.mem = s.mem ∧ t.footprint = s.footprint ∧ t.pc = s.pc ∧ t.instructionCount = s.instructionCount ∧
    t.output = s.output ∧ t.halted = true ∧ s.input <+: t.input

/-- 20_memory.md R45, 10_state.md R14, R22: no step writes the IRF or `LS`; only LOAD does. -/
def Obligations.OnlyLoadWritesTheProgram : Prop :=
  ∀ s t : State, nextIsLoad s = false → step s = .next t → t.irf = s.irf ∧ t.ls = s.ls

/-- 10_state.md R20: the count rises by exactly 1 at a fetch, and nothing else changes it but a LOAD: a turn of the run
loop that leaves it alone executes nothing. Where it rises, the run loop issued a step (40_engine.md R71). Inv rules out a
loop without a loaded program (StepKeepsTheInvariant). -/
def Obligations.CountRisesByOneAtAFetch : Prop :=
  ∀ s t : State, Inv hw s → nextIsLoad s = false → step s = .next t →
    (t.instructionCount = s.instructionCount + 1 ∧ StepIssued s ∧ (fetchEntry s).isSome) ∨
    (t.instructionCount = s.instructionCount ∧
      (s.seq ≠ .waitIn → s.seq ≠ .waitOut → t.mem = s.mem ∧ t.footprint = s.footprint ∧ t.pc = s.pc ∧
        t.output = s.output ∧ t.halted = s.halted))

/-- 20_memory.md R40, R42, R44: output is only ever added to, by at most one byte a turn, and a turn takes at most one
answer of the source, the first. (Answers that come are the model's events, log 2; that a LOAD leaves both channels as they
are is the model's inference, log 16.) -/
def Obligations.ChannelsMoveOneByteAtATime : Prop :=
  ∀ s t : State, step s = .next t →
    (t.output = s.output ∨ ∃ y, t.output = s.output ++ [y]) ∧
    (t.input = s.input ∨ (∃ x, s.input = x :: t.input) ∨ (∃ x, t.input = s.input ++ [x]))

/-- 10_state.md R17: the footprint has no effect on anything but the capacity check, which never fails on this hardware.
-/
def Obligations.FootprintIsUnobservable : Prop :=
  ∀ (s t : State) (f : Footprint), Footprint.wf hw s.footprint → Footprint.wf hw f → step s = .next t →
    ∃ f', step { s with footprint := f } = .next { t with footprint := f' }

/-- The invariant holds at power-on. -/
def Obligations.ResetMeetsTheInvariant : Prop := Inv hw State.reset

/-- Every step of the machine, whatever the outside does, keeps the invariant, on this hardware and under any well-formed
parameters: the canonical store in the data space, `0 <= pc <= ADDR_MAX`, the cap, and what `TR`, `LS`, `SEQ`, `STOP_REQ`
and `halted` may hold together (40_engine.md R87, 10_state.md R16, R20, R21). -/
def Obligations.StepKeepsTheInvariant : Prop :=
  (∀ s t : State, Inv hw s → step s = .next t → Inv hw t) ∧
  (∀ (p : Params) (s t : State), p.wellFormed = true → Inv p s → stepWith p s = .next t → Inv p t)

/-- 00_scope.md R10: from a state that meets the invariant a step always answers a next state: the core's own faults are
such states (log 5), and the model's stop is never reached. -/
def Obligations.StepNeverStopsTheModel : Prop :=
  ∀ s : State, Inv hw s → ∃ t, step s = .next t

/-- 40_engine.md R83, 70_reset_and_hazards.md R119: when the source answers every read and the sink acknowledges every
write, an uninterrupted run ends with a termination reason within as many steps as the cap leaves, and one last test. (The
source's answers are the model's `input`, log 2, the acknowledgements its `sinkReady`, log 3, and what is counted are its
turns, log 4.) -/
def Obligations.RunEndsWithinTheCap : Prop :=
  ∀ s : State, s.seq = .loop → s.stopReq = false → s.script = [] → s.sinkReady = true →
    hw.cap - s.instructionCount ≤ s.input.length →
    ∃ k t, k ≤ hw.cap - s.instructionCount + 1 ∧ Host.Core.run Sys2Proof.core k s = .next t ∧
      t.seq = .idle ∧ t.tr ≠ .none

/-- 70_reset_and_hazards.md R115 (the spec's own inference): with no input but `0x00` and end-of-input, every cell stays
0, every Subleq result is 0 and every Subleq branch is taken. -/
def Obligations.ZeroInputKeepsMemoryZero : Prop :=
  ∀ s t : State, s.mem = [] → OnlyZeroInput s → step s = .next t →
    t.mem = [] ∧ OnlyZeroInput t ∧
    (∀ e, StepIssued s → s.script = [] → fetchEntry s = some e → e.selector = 0 →
      t.tr = .none → memRead t e.b.value = 0 ∧ t.pc = e.c.value)

/-- The canonical form is canonical: two stores in it that read alike are the same data (the model's own claim about
`Memory.wf`, log 8). -/
def Obligations.CanonicalStoresAreExtensional : Prop :=
  ∀ m n : Memory, Memory.wf m → Memory.wf n → (∀ x, m.read x = n.read x) → m = n

/-! ### Conversions -/

/-- 20_memory.md R41 and R43 with 00_scope.md R8: what an input phase writes under each `IN_EXT` and on this
hardware, and what an output phase writes (the spec's own inference). -/
def Obligations.ConversionsAreExtensionAndTruncation : Prop :=
  (∀ p, inputValue p .eoi = 0) ∧
  (∀ p (x : Byte), p.inExt = .zero → inputValue p (.byte x) = x.toNat) ∧
  (∀ p (x : Byte), p.inExt = .sign → inputValue p (.byte x) = x.toInt ∧ -128 ≤ x.toInt ∧ x.toInt ≤ 127) ∧
  hw.inExt = .zero ∧ inputValue hw (.byte 0) = inputValue hw .eoi ∧
  (∀ v : Int, ((trunc8 v).toNat : Int) = v % 256)

/-! ### Encoding -/

/-- 30_encoding.md R67, for programs that have an instruction (an empty one encodes to no bits, which R54 makes a load
error, log 12): decoding the canonical encoding gives the program back, under any parameters. -/
def Obligations.DecodeInvertsEncode : Prop :=
  ∀ (p : Params) (es : List Entry), programWellFormed p es = true → decodeProgram p (encodeProgram es) = .ok es

/-- 30_encoding.md R64, R67: for every instruction, LOAD of its canonical encoding as characters, with any whitespace of
`WS_SET` between them, gives exactly that instruction. -/
def Obligations.LoadedEncodingIsTheInstruction : Prop :=
  ∀ (i : Instr) (source : List Char),
    source.filter (fun ch => !hw.wsSet.contains ch) = bitsToSource (encode i) →
    ∃ e, decodeSource hw source = .ok [e] ∧ e.toInstr = i

/-- 30_encoding.md R47: whitespace is dropped everywhere (`ALL`) or at the two ends alone (`ENDS`), and the first other
character that is no bit ends the stream. -/
def Obligations.SourceIsStrippedAndCut : Prop :=
  ∀ (p : Params) (lead trail more : List Char) (w other : Char) (b1 b2 : List Bool),
    '0' ∉ p.wsSet → '1' ∉ p.wsSet → (∀ ch ∈ lead, ch ∈ p.wsSet) → (∀ ch ∈ trail, ch ∈ p.wsSet) → w ∈ p.wsSet →
    other ∉ p.wsSet → other ≠ '0' → other ≠ '1' → b2 ≠ [] →
    (p.wsMode = .all → bitSequence p (lead ++ bitsToSource b1 ++ [w] ++ bitsToSource b2 ++ trail) = b1 ++ b2) ∧
    (p.wsMode = .ends → b1 ≠ [] →
      bitSequence p (lead ++ bitsToSource b1 ++ [w] ++ bitsToSource b2 ++ trail) = b1) ∧
    bitSequence p (lead ++ bitsToSource b2 ++ trail) = b2 ∧
    bitSequence p (lead ++ bitsToSource b1 ++ [other] ++ more) = b1

/-- 30_encoding.md R64: the selector map is a bijection between entries and instructions, and numbers the classes. -/
def Obligations.SelectorsNumberTheClasses : Prop :=
  (∀ i : Instr, i.toEntry.toInstr = i) ∧ (∀ e : Entry, e.toInstr.toEntry = e) ∧
  (∀ e : Entry, e.selector < 8 ∧
    (e.selector = 0 ↔ e.toInstr = .subleq e.a.value e.b.value e.c.value) ∧
    (e.selector = 1 ↔ e.toInstr = .halt e.a.value e.b.value e.c.value) ∧
    (e.selector = 2 ↔ e.toInstr = .out e.a.value e.b.value e.c.value) ∧
    (e.selector = 3 ↔ e.toInstr = .outHalt e.a.value e.b.value e.c.value) ∧
    (e.selector = 4 ↔ e.toInstr = .inp e.a.value e.b.value e.c.value) ∧
    (e.selector = 5 ↔ e.toInstr = .inpHalt e.a.value e.b.value e.c.value) ∧
    (e.selector = 6 ↔ e.toInstr = .inpOut e.a.value e.b.value e.c.value) ∧
    (e.selector = 7 ↔ e.toInstr = .inpOutHalt e.a.value e.b.value e.c.value))

/-- 30_encoding.md R51, R52, R65: an address of any number of linked segments, whatever their `s`, and a last one has the
value of its nibbles in base 16, and the flag of its last segment alone. -/
def Obligations.AddressIsItsNibblesInBase16 : Prop :=
  ∀ (p : Params) (first : Bool) (linked : List (Nat × Bool)) (lastNib : Nat) (s : Bool) (rest : List Bool),
    (∀ x ∈ linked, x.1 < 16) → lastNib < 16 →
    readAddress p first 0 0 (addressForm linked lastNib s ++ rest) =
      .ok (⟨(linked.map Prod.fst ++ [lastNib]).foldl (fun v n => v * 16 + n) 0, s⟩, rest)

/-- 30_encoding.md R55 to R57: an address that the end of the stream cuts short, after any number of linked segments, is
padded with zeros in its unread low data bits (all four where nothing of the next segment is there and
`DANGLING_LINK = SHIFT`), and has no function flag. -/
def Obligations.CutShortAddressIsPadded : Prop :=
  ∀ (p : Params) (first : Bool) (linked : List (Nat × Bool)) (tail : List Bool),
    (∀ x ∈ linked, x.1 < 16) → tail.length < 6 → (tail = [] → linked ≠ []) →
    ∃ v, readAddress p first 0 0 (linked.flatMap (fun x => segmentBits x.1 x.2 true) ++ tail) = .ok (⟨v, false⟩, []) ∧
      (tail ≠ [] → ∃ d, (∀ k, k < 4 → d.testBit k = (tail[3 - k]?).getD false) ∧ d < 16 ∧
        v = (linked.map Prod.fst ++ [d]).foldl (fun v n => v * 16 + n) 0) ∧
      (tail = [] → v = match p.danglingLink with
        | .shift => (linked.map Prod.fst).foldl (fun v n => v * 16 + n) 0 * 16
        | .noShift => (linked.map Prod.fst).foldl (fun v n => v * 16 + n) 0)

/-- 30_encoding.md R54: `UnexpectedEndOfBitstream` is raised exactly when the bit sequence is empty, which is when no
character but whitespace stands before the first that is neither `0` nor `1`; LOAD then fails with no program. Nothing
else of a stream that fits the IRF is an error. -/
def Obligations.OnlyAnEmptyStreamIsUnexpectedEnd : Prop :=
  (∀ (p : Params) (bits : List Bool), decodeProgram p bits = .error .unexpectedEndOfBitstream ↔ bits = []) ∧
  (∀ (p : Params) (bits : List Bool), bits ≠ [] → bits.length ≤ 18 * p.irfCap → ∃ es, decodeProgram p bits = .ok es) ∧
  (∀ source : List Char, bitSequence hw source = [] ↔
    ∀ ch, (source.filter (fun ch => !hw.wsSet.contains ch)).head? = some ch → ch ≠ '0' ∧ ch ≠ '1') ∧
  (∀ (s : State) (source : List Char), bitSequence hw source = [] → s.seq = .idle →
    (hostCommand hw (.load source) s).ls = .loadFailed ∧
    (hostCommand hw (.load source) s).irf = [] ∧
    (hostCommand hw (.load source) s).tr = .unexpectedEndOfBitstream)

/-- 30_encoding.md R60: `ProgramTooLong` needs a source of more than `18 * IRF_CAP` bits, and a decoded program never has
more than `IRF_CAP` instructions. -/
def Obligations.TooLongNeedsEighteenBitsEach : Prop :=
  ∀ (p : Params) (bits : List Bool),
    (decodeProgram p bits = .error .programTooLong → 18 * p.irfCap < bits.length) ∧
    (∀ es, decodeProgram p bits = .ok es → es.length ≤ p.irfCap ∧ 18 * es.length ≤ bits.length + 5)

/-- 30_encoding.md R59: a trailing instruction cut off anywhere within its `a` or its `b`, or right after either, is
dropped, without an error and without a trace, whatever form its addresses have. -/
def Obligations.TrailingPartIsDropped : Prop :=
  ∀ (p : Params) (es : List Entry) (linkedA linkedB : List (Nat × Bool)) (lastA lastB : Nat) (fa fb : Bool)
    (tail : List Bool), programWellFormed p es = true →
    tail <+: addressForm linkedA lastA fa ++ addressForm linkedB lastB fb →
    decodeProgram p (encodeProgram es ++ tail) = .ok es

/-- 30_encoding.md R67: the canonical encoding of an address is the shortest: `k` segments of 6 bits, where `k` is at
least 1 and the least with `value < 16^k`. -/
def Obligations.CanonicalAddressIsShortest : Prop :=
  ∀ x : Address, ∃ k, (encodeAddress x).length = 6 * k ∧ 1 ≤ k ∧ x.value < 16 ^ k ∧
    (∀ j, 1 ≤ j → x.value < 16 ^ j → k ≤ j)

/-- Words of the spec's worked examples (41_instruction_classes.md R88 to R95) decode to the instructions they stand for.
-/
def Obligations.SpecExamplesDecode : Prop :=
  decodeSource hw "000100 001000 001100".toList = .ok [(Instr.subleq 1 2 3).toEntry] ∧
  decodeSource hw "000000 000000 000010".toList = .ok [(Instr.halt 0 0 0).toEntry] ∧
  decodeSource hw "000000 001010 000000".toList = .ok [(Instr.out 0 2 0).toEntry] ∧
  decodeSource hw "000000 011110 000010".toList = .ok [(Instr.outHalt 0 7 0).toEntry] ∧
  decodeSource hw "000110 000000 000000".toList = .ok [(Instr.inp 1 0 0).toEntry] ∧
  decodeSource hw "010110 000000 000010".toList = .ok [(Instr.inpHalt 5 0 0).toEntry] ∧
  decodeSource hw "100010 100010 000000".toList = .ok [(Instr.inpOut 8 8 0).toEntry] ∧
  decodeSource hw "100010 000010 111110".toList = .ok [(Instr.inpOutHalt 8 0 15).toEntry]
end

