-- ==== Sys2Proof/Laws/Decode.lean ====
section
/-! SUPPORT. What reading one segment and one address does. -/

namespace Sys2Proof

/-- The four bits of a nibble spell it. -/
theorem nibble_testBit {n : Nat} (h : n < 16) :
    nibble (n.testBit 3) (n.testBit 2) (n.testBit 1) (n.testBit 0) = n := by
  interval_cases n <;> rfl

/-- A segment with `l = 0` ends the address, with its own `s` as the flag (30_encoding.md R50). -/
theorem readAddress_last (p : Params) (first : Bool) (value seg : Nat) {n : Nat} (h : n < 16) (s : Bool)
    (rest : List Bool) :
    readAddress p first value seg (segmentBits n s false ++ rest) = .ok (⟨value * 16 + n, s⟩, rest) := by
  simp only [segmentBits, List.cons_append, List.nil_append, readAddress, nibble_testBit h, accumulate]
  rfl

/-- A segment with `l = 1` goes on, whatever its `s` (30_encoding.md R50, R65). -/
theorem readAddress_linked (p : Params) (first : Bool) (value seg : Nat) {n : Nat} (h : n < 16) (s : Bool)
    (rest : List Bool) :
    readAddress p first value seg (segmentBits n s true ++ rest) =
      readAddress p false (value * 16 + n) (seg + 1) rest := by
  simp only [segmentBits, List.cons_append, List.nil_append, readAddress, nibble_testBit h, accumulate]
  rfl

/-- What one address leaves of the stream: nothing, or at least six bits fewer. -/
theorem readAddress_rest {p : Params} {first : Bool} {value seg : Nat} {bits rest : List Bool} {x : Address}
    (h : readAddress p first value seg bits = .ok (x, rest)) :
    rest = [] ∨ rest.length + 6 ≤ bits.length := by
  fun_induction readAddress p first value seg bits
  case case9 ih =>
    rcases ih h with h | h
    · exact Or.inl h
    · exact Or.inr (by simp only [List.length_cons]; omega)
  all_goals simp_all

/-- The only error of an address is zero bits for the very first data bit (30_encoding.md R54). -/
theorem readAddress_error {p : Params} {first : Bool} {value seg : Nat} {bits : List Bool} {e : LoadError}
    (h : readAddress p first value seg bits = .error e) :
    bits = [] ∧ first = true ∧ seg = 0 ∧ e = .unexpectedEndOfBitstream := by
  fun_induction readAddress p first value seg bits <;> simp_all

end Sys2Proof
end

