-- ==== Sys2Proof/Laws/Memory.lean ====
section
/-! SUPPORT. The store and the footprint: reading after writing, and that every operation keeps the canonical form. -/

namespace Sys2Proof.Machine

/-! ### The store -/

theorem Memory.wf_nil : Memory.wf ([] : Memory) := by simp [Memory.wf]

theorem Memory.wf_tail {k : Nat} {w : Int} {m : Memory} (h : Memory.wf ((k, w) :: m)) : Memory.wf m :=
  ⟨(List.pairwise_cons.mp h.1).2, fun x hx => h.2 x (List.mem_cons_of_mem _ hx)⟩

/-- Below every listed address the store reads as never written. -/
theorem Memory.read_below {m : Memory} {x : Nat} (h : ∀ y ∈ m, x < y.1) : m.read x = unlistedCell := by
  cases m with
  | nil => rfl
  | cons e rest =>
    have hx : x < e.1 := h e (by simp)
    obtain ⟨k, v⟩ := e
    simp only [Memory.read]
    rw [if_neg (by simp at hx; omega), if_pos (by simpa using hx)]

theorem Memory.read_write_same {m : Memory} (h : Memory.wf m) (x : Nat) (v : Int) : (m.write x v).read x = v := by
  induction m with
  | nil => by_cases hv : v = unlistedCell <;> simp [Memory.write, Memory.read, hv]
  | cons e rest ih =>
    obtain ⟨k, w⟩ := e
    have hrest : ∀ y ∈ rest, k < y.1 := fun y hy => (List.pairwise_cons.mp h.1).1 y hy
    simp only [Memory.write]
    split
    · split
      · rename_i hk hv
        rw [hv]
        exact Memory.read_below (fun y hy => by
          rcases List.mem_cons.mp hy with rfl | hy
          · exact hk
          · exact Nat.lt_trans hk (hrest y hy))
      · simp [Memory.read]
    · split
      · split
        · rename_i hk hv
          rw [hv]
          exact Memory.read_below (fun y hy => hk ▸ hrest y hy)
        · simp [Memory.read]
      · rename_i h1 h2
        rw [Memory.read, if_neg h2, if_neg h1, ih (Memory.wf_tail h)]

theorem Memory.read_write_other {m : Memory} (h : Memory.wf m) {x y : Nat} (hxy : y ≠ x) (v : Int) :
    (m.write x v).read y = m.read y := by
  induction m with
  | nil => by_cases hv : v = unlistedCell <;> simp [Memory.write, Memory.read, hv, hxy]
  | cons e rest ih =>
    obtain ⟨k, w⟩ := e
    have hrest : ∀ z ∈ rest, k < z.1 := fun z hz => (List.pairwise_cons.mp h.1).1 z hz
    simp only [Memory.write]
    split
    · rename_i hk
      split
      · rfl
      · rw [Memory.read, if_neg hxy]
        split
        · rename_i hlt
          rw [Memory.read, if_neg (by omega), if_pos (by omega)]
        · rfl
    · split
      · rename_i hk
        split
        · rw [Memory.read, if_neg (by omega)]
          split
          · rename_i hlt
            exact Memory.read_below (fun z hz => Nat.lt_trans hlt (hrest z hz))
          · rfl
        · subst hk
          simp only [Memory.read]
          rw [if_neg hxy, if_neg hxy]
      · rw [Memory.read, Memory.read, ih (Memory.wf_tail h)]

/-- Every listed address after a write was listed before or is the one written. -/
theorem Memory.mem_write {m : Memory} {x : Nat} {v : Int} {e : Nat × Int} (h : e ∈ m.write x v) :
    e ∈ m ∨ e = (x, v) ∧ v ≠ unlistedCell := by
  induction m with
  | nil =>
    simp only [Memory.write] at h
    split at h
    · simp at h
    · exact Or.inr ⟨by simpa using h, ‹_›⟩
  | cons d rest ih =>
    obtain ⟨k, w⟩ := d
    simp only [Memory.write] at h
    split at h
    · split at h
      · exact Or.inl h
      · rcases List.mem_cons.mp h with h | h
        · exact Or.inr ⟨h, ‹_›⟩
        · exact Or.inl h
    · split at h
      · split at h
        · exact Or.inl (List.mem_cons_of_mem _ h)
        · rcases List.mem_cons.mp h with h | h
          · exact Or.inr ⟨h, ‹_›⟩
          · exact Or.inl (List.mem_cons_of_mem _ h)
      · rcases List.mem_cons.mp h with h | h
        · exact Or.inl (by simp [h])
        · rcases ih h with h | h
          · exact Or.inl (List.mem_cons_of_mem _ h)
          · exact Or.inr h

/-- A write keeps the canonical form. -/
theorem Memory.wf_write {m : Memory} (h : Memory.wf m) (x : Nat) (v : Int) : Memory.wf (m.write x v) := by
  refine ⟨?_, fun e he => ?_⟩
  · induction m with
    | nil => by_cases hv : v = unlistedCell <;> simp [Memory.write, hv]
    | cons d rest ih =>
      obtain ⟨k, w⟩ := d
      have hp := List.pairwise_cons.mp h.1
      simp only [Memory.write]
      split
      · rename_i hk
        split
        · exact h.1
        · refine List.pairwise_cons.mpr ⟨fun z hz => ?_, h.1⟩
          rcases List.mem_cons.mp hz with rfl | hz
          · exact hk
          · exact Nat.lt_trans hk (hp.1 z hz)
      · split
        · rename_i hk
          split
          · exact hp.2
          · exact List.pairwise_cons.mpr ⟨fun z hz => hk ▸ hp.1 z hz, hp.2⟩
        · refine List.pairwise_cons.mpr ⟨fun z hz => ?_, ih (Memory.wf_tail h)⟩
          rcases Memory.mem_write hz with hz | ⟨rfl, _⟩
          · exact hp.1 z hz
          · simp only; omega
  · rcases Memory.mem_write he with he | ⟨rfl, hv⟩
    · exact h.2 e he
    · exact hv

/-- A write of a `Cell` at a data address keeps the store in the data space. -/
theorem Memory.inSpace_write {p : Params} {m : Memory} (h : Memory.inSpace p m) {x : Nat} {v : Int}
    (hx : x ≤ p.addrMax) (hv : IsCell p v) : Memory.inSpace p (m.write x v) := fun e he => by
  rcases Memory.mem_write he with he | ⟨rfl, -⟩
  · exact h e he
  · exact ⟨hx, hv⟩

/-- Zero is a `Cell` at every width. -/
theorem isCell_zero (p : Params) : IsCell p 0 :=
  ⟨Int.neg_nonpos_of_nonneg (Int.natCast_nonneg _), Int.natCast_nonneg _⟩

/-- Every cell of a store in the data space reads as a `Cell` (10_state.md R16). -/
theorem Memory.isCell_read {p : Params} {m : Memory} (h : Memory.inSpace p m) (x : Nat) : IsCell p (m.read x) := by
  induction m with
  | nil => exact isCell_zero p
  | cons e rest ih =>
    obtain ⟨k, v⟩ := e
    simp only [Memory.read]
    split
    · exact (h (k, v) (by simp)).2
    · split
      · exact isCell_zero p
      · exact ih (fun y hy => h y (List.mem_cons_of_mem _ hy))

/-! ### The footprint -/

theorem Footprint.mem_insert {f : Footprint} {x y : Nat} : y ∈ f.insert x ↔ y = x ∨ y ∈ f := by
  induction f with
  | nil => simp [Footprint.insert]
  | cons k rest ih =>
    simp only [Footprint.insert]
    split
    · simp
    · split
      · rename_i hk; subst hk; simp
      · simp only [List.mem_cons, ih]; tauto

/-- Adding a data address keeps the footprint's form. -/
theorem Footprint.wf_insert {p : Params} {f : Footprint} (h : Footprint.wf p f) {x : Nat} (hx : x ≤ p.addrMax) :
    Footprint.wf p (f.insert x) := by
  refine ⟨?_, fun y hy => ?_⟩
  · induction f with
    | nil => simp [Footprint.insert]
    | cons k rest ih =>
      have hp := List.pairwise_cons.mp h.1
      simp only [Footprint.insert]
      split
      · rename_i hk
        refine List.pairwise_cons.mpr ⟨fun z hz => ?_, h.1⟩
        rcases List.mem_cons.mp hz with rfl | hz
        · exact hk
        · exact Nat.lt_trans hk (hp.1 z hz)
      · split
        · exact h.1
        · refine List.pairwise_cons.mpr ⟨fun z hz => ?_, ih ⟨hp.2, fun y hy => h.2 y (List.mem_cons_of_mem _ hy)⟩⟩
          rcases Footprint.mem_insert.mp hz with rfl | hz
          · omega
          · exact hp.1 z hz
  · rcases Footprint.mem_insert.mp hy with rfl | hy
    · exact hx
    · exact h.2 y hy

/-- A footprint has no more entries than there are data addresses, so one that lacks a data address has room. -/
theorem Footprint.length_le {p : Params} {f : Footprint} (h : Footprint.wf p f) : f.length ≤ p.addrMax + 1 := by
  have hn : f.Nodup := h.1.imp (fun hlt => Nat.ne_of_lt hlt)
  have hs : f.toFinset ⊆ Finset.range (p.addrMax + 1) := fun x hx => by
    have := h.2 x (List.mem_toFinset.mp hx)
    exact Finset.mem_range.mpr (by omega)
  have := Finset.card_le_card hs
  rwa [List.toFinset_card_of_nodup hn, Finset.card_range] at this

/-! ### MemRead and MemWrite -/

theorem memRead_memWrite_same {s : State} (h : Memory.wf s.mem) (x : Nat) (v : Int) :
    memRead (memWrite x v s) x = v := Memory.read_write_same h x v

theorem memRead_memWrite_other {s : State} (h : Memory.wf s.mem) {x y : Nat} (hxy : y ≠ x) (v : Int) :
    memRead (memWrite x v s) y = memRead s y := Memory.read_write_other h hxy v

/-- MemRead depends on the store alone. -/
theorem memRead_congr {s t : State} (h : t.mem = s.mem) (x : Nat) : memRead t x = memRead s x := by
  simp [memRead, h]

theorem reset_mem_wf : Memory.wf State.reset.mem := Memory.wf_nil

end Sys2Proof.Machine
end

