-- ==== Sys2Proof/Laws/State.lean ====
section
/-! SUPPORT. Each named update of the state, field by field: what it sets and what it leaves. -/

namespace Sys2Proof.Machine

/-! ### MemWrite -/

@[simp] theorem memWrite_irf (x : Nat) (v : Int) (s : State) : (memWrite x v s).irf = s.irf := rfl
@[simp] theorem memWrite_mem (x : Nat) (v : Int) (s : State) : (memWrite x v s).mem = s.mem.write x v := rfl
@[simp] theorem memWrite_footprint (x : Nat) (v : Int) (s : State) : (memWrite x v s).footprint = s.footprint.insert x := rfl
@[simp] theorem memWrite_pc (x : Nat) (v : Int) (s : State) : (memWrite x v s).pc = s.pc := rfl
@[simp] theorem memWrite_halted (x : Nat) (v : Int) (s : State) : (memWrite x v s).halted = s.halted := rfl
@[simp] theorem memWrite_instructionCount (x : Nat) (v : Int) (s : State) : (memWrite x v s).instructionCount = s.instructionCount := rfl
@[simp] theorem memWrite_tr (x : Nat) (v : Int) (s : State) : (memWrite x v s).tr = s.tr := rfl
@[simp] theorem memWrite_ls (x : Nat) (v : Int) (s : State) : (memWrite x v s).ls = s.ls := rfl
@[simp] theorem memWrite_seq (x : Nat) (v : Int) (s : State) : (memWrite x v s).seq = s.seq := rfl
@[simp] theorem memWrite_stopReq (x : Nat) (v : Int) (s : State) : (memWrite x v s).stopReq = s.stopReq := rfl
@[simp] theorem memWrite_script (x : Nat) (v : Int) (s : State) : (memWrite x v s).script = s.script := rfl
@[simp] theorem memWrite_input (x : Nat) (v : Int) (s : State) : (memWrite x v s).input = s.input := rfl
@[simp] theorem memWrite_sinkReady (x : Nat) (v : Int) (s : State) : (memWrite x v s).sinkReady = s.sinkReady := rfl
@[simp] theorem memWrite_output (x : Nat) (v : Int) (s : State) : (memWrite x v s).output = s.output := rfl
@[simp] theorem memWrite_replies (x : Nat) (v : Int) (s : State) : (memWrite x v s).replies = s.replies := rfl

/-! ### The fetch's count -/

@[simp] theorem countFetch_irf (s : State) : (countFetch s).irf = s.irf := rfl
@[simp] theorem countFetch_mem (s : State) : (countFetch s).mem = s.mem := rfl
@[simp] theorem countFetch_footprint (s : State) : (countFetch s).footprint = s.footprint := rfl
@[simp] theorem countFetch_pc (s : State) : (countFetch s).pc = s.pc := rfl
@[simp] theorem countFetch_halted (s : State) : (countFetch s).halted = s.halted := rfl
@[simp] theorem countFetch_instructionCount (s : State) : (countFetch s).instructionCount = s.instructionCount + 1 := rfl
@[simp] theorem countFetch_tr (s : State) : (countFetch s).tr = s.tr := rfl
@[simp] theorem countFetch_ls (s : State) : (countFetch s).ls = s.ls := rfl
@[simp] theorem countFetch_seq (s : State) : (countFetch s).seq = s.seq := rfl
@[simp] theorem countFetch_stopReq (s : State) : (countFetch s).stopReq = s.stopReq := rfl
@[simp] theorem countFetch_script (s : State) : (countFetch s).script = s.script := rfl
@[simp] theorem countFetch_input (s : State) : (countFetch s).input = s.input := rfl
@[simp] theorem countFetch_sinkReady (s : State) : (countFetch s).sinkReady = s.sinkReady := rfl
@[simp] theorem countFetch_output (s : State) : (countFetch s).output = s.output := rfl
@[simp] theorem countFetch_replies (s : State) : (countFetch s).replies = s.replies := rfl

/-! ### Leaving the run loop -/

@[simp] theorem leaveLoop_irf (s : State) : (leaveLoop s).irf = s.irf := rfl
@[simp] theorem leaveLoop_mem (s : State) : (leaveLoop s).mem = s.mem := rfl
@[simp] theorem leaveLoop_footprint (s : State) : (leaveLoop s).footprint = s.footprint := rfl
@[simp] theorem leaveLoop_pc (s : State) : (leaveLoop s).pc = s.pc := rfl
@[simp] theorem leaveLoop_halted (s : State) : (leaveLoop s).halted = s.halted := rfl
@[simp] theorem leaveLoop_instructionCount (s : State) : (leaveLoop s).instructionCount = s.instructionCount := rfl
@[simp] theorem leaveLoop_tr (s : State) : (leaveLoop s).tr = s.tr := rfl
@[simp] theorem leaveLoop_ls (s : State) : (leaveLoop s).ls = s.ls := rfl
@[simp] theorem leaveLoop_seq (s : State) : (leaveLoop s).seq = .idle := rfl
@[simp] theorem leaveLoop_stopReq (s : State) : (leaveLoop s).stopReq = false := rfl
@[simp] theorem leaveLoop_script (s : State) : (leaveLoop s).script = s.script := rfl
@[simp] theorem leaveLoop_input (s : State) : (leaveLoop s).input = s.input := rfl
@[simp] theorem leaveLoop_sinkReady (s : State) : (leaveLoop s).sinkReady = s.sinkReady := rfl
@[simp] theorem leaveLoop_output (s : State) : (leaveLoop s).output = s.output := rfl
@[simp] theorem leaveLoop_replies (s : State) : (leaveLoop s).replies = s.replies ++ [.runReturned s.tr] := rfl

/-! ### Ending the run -/

@[simp] theorem endRun_irf (r : TermReason) (s : State) : (endRun r s).irf = s.irf := rfl
@[simp] theorem endRun_mem (r : TermReason) (s : State) : (endRun r s).mem = s.mem := rfl
@[simp] theorem endRun_footprint (r : TermReason) (s : State) : (endRun r s).footprint = s.footprint := rfl
@[simp] theorem endRun_pc (r : TermReason) (s : State) : (endRun r s).pc = s.pc := rfl
@[simp] theorem endRun_halted (r : TermReason) (s : State) : (endRun r s).halted = s.halted := rfl
@[simp] theorem endRun_instructionCount (r : TermReason) (s : State) : (endRun r s).instructionCount = s.instructionCount := rfl
@[simp] theorem endRun_tr (r : TermReason) (s : State) : (endRun r s).tr = r := rfl
@[simp] theorem endRun_ls (r : TermReason) (s : State) : (endRun r s).ls = s.ls := rfl
@[simp] theorem endRun_seq (r : TermReason) (s : State) : (endRun r s).seq = .idle := rfl
@[simp] theorem endRun_stopReq (r : TermReason) (s : State) : (endRun r s).stopReq = false := rfl
@[simp] theorem endRun_script (r : TermReason) (s : State) : (endRun r s).script = s.script := rfl
@[simp] theorem endRun_input (r : TermReason) (s : State) : (endRun r s).input = s.input := rfl
@[simp] theorem endRun_sinkReady (r : TermReason) (s : State) : (endRun r s).sinkReady = s.sinkReady := rfl
@[simp] theorem endRun_output (r : TermReason) (s : State) : (endRun r s).output = s.output := rfl
@[simp] theorem endRun_replies (r : TermReason) (s : State) : (endRun r s).replies = s.replies ++ [.runReturned r] := rfl

/-! ### Taking a fault -/

@[simp] theorem takeFault_irf (k : FaultKind) (s : State) : (takeFault k s).irf = s.irf := rfl
@[simp] theorem takeFault_mem (k : FaultKind) (s : State) : (takeFault k s).mem = s.mem := rfl
@[simp] theorem takeFault_footprint (k : FaultKind) (s : State) : (takeFault k s).footprint = s.footprint := rfl
@[simp] theorem takeFault_pc (k : FaultKind) (s : State) : (takeFault k s).pc = s.pc := rfl
@[simp] theorem takeFault_halted (k : FaultKind) (s : State) : (takeFault k s).halted = s.halted := rfl
@[simp] theorem takeFault_instructionCount (k : FaultKind) (s : State) : (takeFault k s).instructionCount = s.instructionCount := rfl
@[simp] theorem takeFault_tr (k : FaultKind) (s : State) : (takeFault k s).tr = k.reason := rfl
@[simp] theorem takeFault_ls (k : FaultKind) (s : State) : (takeFault k s).ls = s.ls := rfl
@[simp] theorem takeFault_seq (k : FaultKind) (s : State) : (takeFault k s).seq = .idle := rfl
@[simp] theorem takeFault_stopReq (k : FaultKind) (s : State) : (takeFault k s).stopReq = false := rfl
@[simp] theorem takeFault_script (k : FaultKind) (s : State) : (takeFault k s).script = s.script := rfl
@[simp] theorem takeFault_input (k : FaultKind) (s : State) : (takeFault k s).input = s.input := rfl
@[simp] theorem takeFault_sinkReady (k : FaultKind) (s : State) : (takeFault k s).sinkReady = s.sinkReady := rfl
@[simp] theorem takeFault_output (k : FaultKind) (s : State) : (takeFault k s).output = s.output := rfl
@[simp] theorem takeFault_replies (k : FaultKind) (s : State) : (takeFault k s).replies = s.replies ++ [.runReturned k.reason] := rfl

/-! ### Answering the host -/

@[simp] theorem answerHost_irf (r : Reply) (s : State) : (answerHost r s).irf = s.irf := rfl
@[simp] theorem answerHost_mem (r : Reply) (s : State) : (answerHost r s).mem = s.mem := rfl
@[simp] theorem answerHost_footprint (r : Reply) (s : State) : (answerHost r s).footprint = s.footprint := rfl
@[simp] theorem answerHost_pc (r : Reply) (s : State) : (answerHost r s).pc = s.pc := rfl
@[simp] theorem answerHost_halted (r : Reply) (s : State) : (answerHost r s).halted = s.halted := rfl
@[simp] theorem answerHost_instructionCount (r : Reply) (s : State) : (answerHost r s).instructionCount = s.instructionCount := rfl
@[simp] theorem answerHost_tr (r : Reply) (s : State) : (answerHost r s).tr = s.tr := rfl
@[simp] theorem answerHost_ls (r : Reply) (s : State) : (answerHost r s).ls = s.ls := rfl
@[simp] theorem answerHost_seq (r : Reply) (s : State) : (answerHost r s).seq = s.seq := rfl
@[simp] theorem answerHost_stopReq (r : Reply) (s : State) : (answerHost r s).stopReq = s.stopReq := rfl
@[simp] theorem answerHost_script (r : Reply) (s : State) : (answerHost r s).script = s.script := rfl
@[simp] theorem answerHost_input (r : Reply) (s : State) : (answerHost r s).input = s.input := rfl
@[simp] theorem answerHost_sinkReady (r : Reply) (s : State) : (answerHost r s).sinkReady = s.sinkReady := rfl
@[simp] theorem answerHost_output (r : Reply) (s : State) : (answerHost r s).output = s.output := rfl
@[simp] theorem answerHost_replies (r : Reply) (s : State) : (answerHost r s).replies = s.replies ++ [r] := rfl

/-! ### Clearing the core -/

@[simp] theorem cleared_irf (s : State) : (s.cleared).irf = [] := rfl
@[simp] theorem cleared_mem (s : State) : (s.cleared).mem = [] := rfl
@[simp] theorem cleared_footprint (s : State) : (s.cleared).footprint = [] := rfl
@[simp] theorem cleared_pc (s : State) : (s.cleared).pc = 0 := rfl
@[simp] theorem cleared_halted (s : State) : (s.cleared).halted = false := rfl
@[simp] theorem cleared_instructionCount (s : State) : (s.cleared).instructionCount = 0 := rfl
@[simp] theorem cleared_tr (s : State) : (s.cleared).tr = .none := rfl
@[simp] theorem cleared_ls (s : State) : (s.cleared).ls = .unloaded := rfl
@[simp] theorem cleared_seq (s : State) : (s.cleared).seq = .idle := rfl
@[simp] theorem cleared_stopReq (s : State) : (s.cleared).stopReq = false := rfl
@[simp] theorem cleared_script (s : State) : (s.cleared).script = s.script := rfl
@[simp] theorem cleared_input (s : State) : (s.cleared).input = s.input := rfl
@[simp] theorem cleared_sinkReady (s : State) : (s.cleared).sinkReady = s.sinkReady := rfl
@[simp] theorem cleared_output (s : State) : (s.cleared).output = s.output := rfl
@[simp] theorem cleared_replies (s : State) : (s.cleared).replies = s.replies := rfl

end Sys2Proof.Machine
end

