-- ==== Sys2Proof/Laws/Ops.lean ====
section
/-! SUPPORT. What each shared operation of a step does, said once. -/

namespace Sys2Proof.Machine

/-! ### Flow -/

@[simp] theorem Flow.go_andThen (s : State) (g : State → Flow) : (Flow.go s).andThen g = g s := rfl
@[simp] theorem Flow.stop_andThen (s : State) (g : State → Flow) : (Flow.stop s).andThen g = .stop s := rfl
@[simp] theorem Flow.go_outcome (s : State) : (Flow.go s).outcome = .next s := rfl
@[simp] theorem Flow.stop_outcome (s : State) : (Flow.stop s).outcome = .next s := rfl

/-- However a flow ends, the model goes on. -/
theorem Flow.outcome_next (f : Flow) : ∃ t, f.outcome = .next t := by
  cases f <;> exact ⟨_, rfl⟩

/-! ### Checks -/

theorem checkAddress_of_le {p : Params} {v : Nat} (h : v ≤ p.addrMax) (s : State) : checkAddress p v s = .go s :=
  if_pos h

theorem checkAddress_of_gt {p : Params} {v : Nat} (h : p.addrMax < v) (s : State) :
    checkAddress p v s = .stop (takeFault .addressRange s) := if_neg (by omega)

/-- The target is in range, or the branch is not taken. -/
theorem checkTarget_go {p : Params} {c : Nat} {r : Int} (h : branchTaken r = true → c ≤ p.addrMax) (s : State) :
    checkTarget p c r s = .go s := by
  unfold checkTarget
  split
  · exact checkAddress_of_le (h ‹_›) s
  · rfl

theorem checkTarget_stop {p : Params} {c : Nat} {r : Int} (ht : branchTaken r = true) (h : p.addrMax < c) (s : State) :
    checkTarget p c r s = .stop (takeFault .addressRange s) := by
  rw [checkTarget, if_pos ht, checkAddress_of_gt h]

@[simp] theorem branchTaken_iff {r : Int} : branchTaken r = true ↔ r ≤ 0 := by simp [branchTaken]

theorem branchPc_taken (c : Nat) {r : Int} (h : r ≤ 0) (s : State) : branchPc c r s = c :=
  if_pos (branchTaken_iff.mpr h)

theorem branchPc_notTaken (c : Nat) {r : Int} (h : 0 < r) (s : State) : branchPc c r s = s.pc + 1 :=
  if_neg (fun ht => by have := branchTaken_iff.mp ht; omega)

theorem hasRoom_iff {p : Params} {x : Nat} {s : State} :
    hasRoom p x s = true ↔ x ∈ s.footprint ∨ s.footprint.length < p.storeCap := by
  simp [hasRoom]

theorem hasRoom_of_roomFor {x : Nat} {s : State} (h : RoomFor x s) : hasRoom Config.hw x s = true := hasRoom_iff.mpr h

theorem checkRoom_of_room {p : Params} {x : Nat} {s : State} (h : hasRoom p x s = true) : checkRoom p x s = .go s :=
  if_pos h

theorem checkRoom_of_full {p : Params} {x : Nat} {s : State} (h : hasRoom p x s = false) :
    checkRoom p x s = .stop (takeFault .storeFull s) := if_neg (by simp [h])

@[simp] theorem hasRoom_countFetch (p : Params) (x : Nat) (s : State) : hasRoom p x (countFetch s) = hasRoom p x s := rfl

/-- With room for every data address (this hardware's `STORE_CAP`), a data address always finds an entry. -/
theorem hasRoom_of_wf {p : Params} (hp : p.addrMax < p.storeCap) {x : Nat} {s : State}
    (h : Footprint.wf p s.footprint) (hx : x ≤ p.addrMax) : hasRoom p x s = true := by
  rw [hasRoom_iff]
  by_cases hm : x ∈ s.footprint
  · exact Or.inl hm
  · refine Or.inr ?_
    have hlen : (s.footprint.insert x).length = s.footprint.length + 1 := by
      clear h
      generalize s.footprint = f at hm
      induction f with
      | nil => rfl
      | cons k rest ih =>
        simp only [List.mem_cons, not_or] at hm
        simp only [Footprint.insert]
        split
        · rfl
        · rw [if_neg hm.1, List.length_cons, List.length_cons, ih hm.2]
    have := Footprint.length_le (Footprint.wf_insert h hx)
    omega

/-- This hardware's store has room for every data address (00_scope.md R5). -/
theorem hardware_hasRoom : Config.hw.addrMax < Config.hw.storeCap := Nat.lt_succ_self _

/-! ### Input and output -/

theorem inputPhase_unanswered (p : Params) (a : Nat) {s : State} (h : s.input = []) :
    inputPhase p a s = .stop { s with seq := .waitIn } := by
  simp [inputPhase, h]

theorem inputPhase_answered (p : Params) (a : Nat) {s : State} {x : InAnswer} {rest : List InAnswer}
    (h : s.input = x :: rest) :
    inputPhase p a s = .go (memWrite a (inputValue p x) { s with input := rest, seq := .loop }) := by
  simp [inputPhase, h]

theorem outputPhase_ready (b : Nat) {s : State} (h : s.sinkReady = true) :
    outputPhase b s = .go { s with output := s.output ++ [trunc8 (memRead s b)], seq := .loop } := by
  simp [outputPhase, h]

theorem outputPhase_notReady (b : Nat) {s : State} (h : s.sinkReady = false) :
    outputPhase b s = .stop { s with seq := .waitOut } := by
  simp [outputPhase, h]

/-- What an input phase writes on this hardware. -/
theorem inputValue_hw (x : InAnswer) : inputValue Config.hw x = answerInt x := by cases x <;> rfl

/-- What an input phase writes is a `Cell` of every width that holds a byte (20_memory.md R31, R41). -/
theorem isCell_inputValue {p : Params} (hp : p.inExt.leastWidth ≤ p.cellW) (x : InAnswer) :
    IsCell p (inputValue p x) := by
  have hpow : 2 ^ (p.inExt.leastWidth - 1) ≤ 2 ^ (p.cellW - 1) :=
    Nat.pow_le_pow_right (by decide) (Nat.sub_le_sub_right hp 1)
  cases x with
  | eoi => exact isCell_zero p
  | byte x =>
    simp only [IsCell, Params.cellMin, Params.cellMax, leastOfWidth, greatestOfWidth, inputValue]
    cases he : p.inExt with
    | zero =>
      have hx := x.isLt
      simp only [he, InExt.leastWidth, zeroExtend] at *
      omega
    | sign =>
      have hx := BitVec.toInt_lt (x := x)
      have hx' := BitVec.le_toInt (x := x)
      simp only [he, InExt.leastWidth, signExtend] at *
      omega

theorem trunc8_eq_lowByte (v : Int) : trunc8 v = lowByte v := by
  apply BitVec.eq_of_toNat_eq
  simp only [trunc8, lowByte, BitVec.toNat_ofInt, BitVec.toNat_ofNat]
  omega

/-! ### Arithmetic -/

theorem overflows_eq_false {p : Params} {r : Int} : overflows p r = false ↔ IsCell p r := by
  simp [overflows, IsCell]

theorem overflows_eq_true {p : Params} {r : Int} (h : ¬ IsCell p r) : overflows p r = true := by
  rw [← Bool.not_eq_false, overflows_eq_false]
  exact h

theorem narrowResult_of_fits {p : Params} {r : Int} (h : IsCell p r) : narrowResult p r = some r := by
  simp [narrowResult, overflows_eq_false.mpr h]

theorem narrowResult_fault {p : Params} (hp : p.overflowMode = .fault) {r : Int} (h : ¬ IsCell p r) :
    narrowResult p r = none := by
  simp [narrowResult, overflows_eq_true h, hp]

theorem narrowResult_wrap {p : Params} (hp : p.overflowMode = .wrap) {r : Int} (h : ¬ IsCell p r) :
    narrowResult p r = some (wrapResult p r) := by
  simp [narrowResult, overflows_eq_true h, hp]

/-- A wrapped result is a `Cell` (40_engine.md R80). -/
theorem isCell_wrapResult {p : Params} (hp : 1 ≤ p.cellW) (r : Int) : IsCell p (wrapResult p r) := by
  have hpow : 2 ^ p.cellW = 2 * 2 ^ (p.cellW - 1) := by
    rw [← Nat.pow_succ', Nat.succ_eq_add_one, Nat.sub_add_cancel hp]
  have hpos : 0 < 2 ^ (p.cellW - 1) := Nat.pow_pos (by decide)
  simp only [IsCell, wrapResult, Params.cellMin, Params.cellMax, leastOfWidth, greatestOfWidth, hpow]
  generalize 2 ^ (p.cellW - 1) = n at *
  have h1 := Int.emod_nonneg (r - -(n : Int)) (b := ((2 * n : Nat) : Int)) (by omega)
  have h2 := Int.emod_lt_of_pos (r - -(n : Int)) (b := ((2 * n : Nat) : Int)) (by omega)
  omega

/-- Whatever a Subleq step writes is a `Cell` (40_engine.md R80, 20_memory.md R31). -/
theorem isCell_narrowResult {p : Params} (hp : 1 ≤ p.cellW) {r : Int} {v : Int} (h : narrowResult p r = some v) :
    IsCell p v := by
  by_cases hr : IsCell p r
  · rw [narrowResult_of_fits hr, Option.some.injEq] at h
    exact h ▸ hr
  · cases ho : p.overflowMode with
    | fault => simp [narrowResult_fault ho hr] at h
    | wrap =>
      rw [narrowResult_wrap ho hr, Option.some.injEq] at h
      exact h ▸ isCell_wrapResult hp r

/-! ### Fetch -/

theorem pcInRange_iff {s : State} : pcInRange s = true ↔ 0 ≤ s.pc ∧ s.pc < s.irf.length := by
  rw [pcInRange, Bool.and_eq_true, decide_eq_true_eq, decide_eq_true_eq]
  rfl

theorem fetchEntry_some_iff {s : State} {e : Entry} :
    fetchEntry s = some e ↔ pcInRange s = true ∧ s.irf[s.pc.toNat]? = some e := by
  unfold fetchEntry
  split <;> simp_all

theorem fetchEntry_isSome {s : State} (h : pcInRange s = true) : ∃ e, fetchEntry s = some e := by
  have hr := pcInRange_iff.mp h
  have hlt : s.pc.toNat < s.irf.length := by omega
  exact ⟨s.irf[s.pc.toNat], fetchEntry_some_iff.mpr ⟨h, List.getElem?_eq_getElem hlt⟩⟩

/-- Fetch depends on the IRF and the program counter alone. -/
theorem fetchEntry_congr {s t : State} (hirf : t.irf = s.irf) (hpc : t.pc = s.pc) : fetchEntry t = fetchEntry s := by
  unfold fetchEntry pcInRange programLength
  rw [hirf, hpc]

theorem pcInRange_congr {s t : State} (hirf : t.irf = s.irf) (hpc : t.pc = s.pc) : pcInRange t = pcInRange s := by
  unfold pcInRange programLength
  rw [hirf, hpc]

/-! ### Faults -/

/-- A fault taken from the counted state is a precise one. -/
theorem faultedStep_takeFault (k : FaultKind) (s : State) : FaultedStep k s (takeFault k (countFetch s)) := by
  constructor <;> rfl

end Sys2Proof.Machine
end

