-- ==== Sys2Proof/Laws/Step.lean ====
section
/-! SUPPORT. What one step can do, said once under any parameters: the inversion of `execWith`, of the rest of a step
that waited, of a turn of the core and of a step of the machine; and the same of this hardware's `exec` and `step`. -/

namespace Sys2Proof.Machine

variable {p : Params}

/-! ### The parts of a step of a function class, as relations -/

/-- The input phase of an entry has been performed, or the entry has none. -/
def InputDone (p : Params) (e : Entry) (s t : State) : Prop :=
  (e.a.hasFunction = true ∧ ∃ x rest, s.input = x :: rest ∧
    t = memWrite e.a.value (inputValue p x) { s with input := rest, seq := .loop }) ∨
  (e.a.hasFunction = false ∧ t = s)

/-- The output phase of an entry has been performed, or the entry has none. -/
def OutputDone (e : Entry) (s t : State) : Prop :=
  (e.b.hasFunction = true ∧ s.sinkReady = true ∧
    t = { s with output := s.output ++ [trunc8 (memRead s e.b.value)], seq := .loop }) ∨
  (e.b.hasFunction = false ∧ t = s)

/-- The end of a step of a function class: halt, or the next index. -/
def StepDone (e : Entry) (s t : State) : Prop :=
  (e.c.hasFunction = true ∧ t = { s with halted := true }) ∨
  (e.c.hasFunction = false ∧ t = { s with pc := s.pc + 1 })

/-- What the rest of a step from its input phase on can leave. -/
def FromInput (p : Params) (e : Entry) (s t : State) : Prop :=
  (e.a.hasFunction = true ∧ s.input = [] ∧ t = { s with seq := .waitIn }) ∨
  (∃ u, InputDone p e s u ∧ e.b.hasFunction = true ∧ s.sinkReady = false ∧ t = { u with seq := .waitOut }) ∨
  (∃ u v, InputDone p e s u ∧ OutputDone e u v ∧ StepDone e v t)

/-- What the rest of a step from its output phase on can leave. -/
def FromOutput (e : Entry) (s t : State) : Prop :=
  (e.b.hasFunction = true ∧ s.sinkReady = false ∧ t = { s with seq := .waitOut }) ∨
  (∃ v, OutputDone e s v ∧ StepDone e v t)

/-- The range checks of the operands an entry's function phases use have passed. -/
def PhasesInRange (p : Params) (e : Entry) : Prop :=
  (e.a.hasFunction = true → e.a.value ≤ p.addrMax) ∧ (e.b.hasFunction = true → e.b.value ≤ p.addrMax)

/-- A Subleq step that completed. -/
def SubleqDone (p : Params) (e : Entry) (s t : State) : Prop :=
  e.selector = 0 ∧ e.a.value ≤ p.addrMax ∧ e.b.value ≤ p.addrMax ∧
  ∃ r : Int, narrowResult p (exactResult e.a.value e.b.value s) = some r ∧
    (branchTaken r = true → e.c.value ≤ p.addrMax) ∧ hasRoom p e.b.value s = true ∧
    t = { memWrite e.b.value r (countFetch s) with pc := branchPc e.c.value r s }

/-- A step that faulted, with what its kind implies. -/
def StepFaulted (p : Params) (e : Entry) (s t : State) : Prop :=
  ∃ k, t = takeFault k (countFetch s) ∧
    (k = .storeFull → ∃ x, x ≤ p.addrMax ∧ hasRoom p x s = false) ∧
    (k = .addressRange → (usesA e = true ∧ p.addrMax < e.a.value) ∨ (usesB e = true ∧ p.addrMax < e.b.value) ∨
      (e.selector = 0 ∧ p.addrMax < e.c.value)) ∧
    (k = .arithOverflow → e.selector = 0)

/-! ### execWith -/

/-- `exec` is `execWith` at this hardware's parameters, for every entry. -/
theorem exec_toInstr (e : Entry) (s : State) : exec e.toInstr s = execWith Config.hw e.toInstr s := by
  cases e.toInstr <;> rfl

theorem nil_or_cons {α : Type} (l : List α) : l = [] ∨ ∃ x rest, l = x :: rest := by
  cases l <;> simp

theorem outputPhase_cases (e : Entry) (s : State) (hb : e.b.hasFunction = true) :
    (s.sinkReady = false ∧ outputPhase e.b.value s = .stop { s with seq := .waitOut }) ∨
    (∃ v, outputPhase e.b.value s = .go v ∧ OutputDone e s v) := by
  rcases Bool.eq_false_or_eq_true s.sinkReady with h | h
  swap
  · exact Or.inl ⟨h, outputPhase_notReady _ h⟩
  · exact Or.inr ⟨_, outputPhase_ready _ h, Or.inl ⟨hb, h, rfl⟩⟩

theorem inputPhase_cases (e : Entry) (s : State) (ha : e.a.hasFunction = true) :
    (s.input = [] ∧ inputPhase p e.a.value s = .stop { s with seq := .waitIn }) ∨
    (∃ u, inputPhase p e.a.value s = .go u ∧ InputDone p e s u ∧ u.sinkReady = s.sinkReady) := by
  rcases nil_or_cons s.input with h | ⟨x, rest, h⟩
  · exact Or.inl ⟨h, inputPhase_unanswered _ _ h⟩
  · exact Or.inr ⟨_, inputPhase_answered _ _ h, Or.inl ⟨ha, x, rest, h, rfl⟩, rfl⟩

/-- The last part of a function class's step, as the meanings end it. -/
def endPhase (e : Entry) : State → Flow := if e.c.hasFunction then haltPhase else fallThrough

theorem endPhase_done (e : Entry) (s : State) : ∃ t, endPhase e s = .go t ∧ StepDone e s t := by
  unfold endPhase
  cases h : e.c.hasFunction with
  | true => exact ⟨_, rfl, Or.inl ⟨h, rfl⟩⟩
  | false => exact ⟨_, rfl, Or.inr ⟨h, rfl⟩⟩

theorem outputThenEnd_cases (e : Entry) (s : State) (hb : e.b.hasFunction = true) :
    ∃ t, ((outputPhase e.b.value s).andThen (endPhase e)).outcome = .next t ∧ FromOutput e s t := by
  rcases outputPhase_cases e s hb with ⟨hr, h⟩ | ⟨v, h, hv⟩
  · exact ⟨_, by rw [h]; rfl, Or.inl ⟨hb, hr, rfl⟩⟩
  · obtain ⟨t, ht, hd⟩ := endPhase_done e v
    exact ⟨t, by rw [h, Flow.go_andThen, ht]; rfl, Or.inr ⟨v, hv, hd⟩⟩

theorem inputThenEnd_cases (e : Entry) (s : State) (ha : e.a.hasFunction = true) (hb : e.b.hasFunction = false) :
    ∃ t, ((inputPhase p e.a.value s).andThen (endPhase e)).outcome = .next t ∧ FromInput p e s t := by
  rcases inputPhase_cases e s ha with ⟨hi, h⟩ | ⟨u, h, hu, -⟩
  · exact ⟨_, by rw [h]; rfl, Or.inl ⟨ha, hi, rfl⟩⟩
  · obtain ⟨t, ht, hd⟩ := endPhase_done e u
    exact ⟨t, by rw [h, Flow.go_andThen, ht]; rfl, Or.inr (Or.inr ⟨u, u, hu, Or.inr ⟨hb, rfl⟩, hd⟩)⟩

theorem inputThenOutput_cases (e : Entry) (s : State) (ha : e.a.hasFunction = true) (hb : e.b.hasFunction = true) :
    ∃ t, ((inputPhase p e.a.value s).andThen
      (fun u => (outputPhase e.b.value u).andThen (endPhase e))).outcome = .next t ∧ FromInput p e s t := by
  rcases inputPhase_cases e s ha with ⟨hi, h⟩ | ⟨u, h, hu, hs⟩
  · exact ⟨_, by rw [h]; rfl, Or.inl ⟨ha, hi, rfl⟩⟩
  · obtain ⟨t, ht, hf⟩ := outputThenEnd_cases e u hb
    refine ⟨t, by rw [h, Flow.go_andThen, ht], ?_⟩
    rcases hf with ⟨-, hr, rfl⟩ | ⟨v, hv, hd⟩
    · exact Or.inr (Or.inl ⟨u, hu, hb, hs ▸ hr, rfl⟩)
    · exact Or.inr (Or.inr ⟨u, v, hu, hv, hd⟩)

/-- The rest of a step that waits for input: which classes have one, and what it can leave. -/
theorem resumeInput_cases (e : Entry) (s : State) :
    (e.a.hasFunction = false ∧ resumeInput p e.toInstr s = none) ∨
    (e.a.hasFunction = true ∧ ∃ f t, resumeInput p e.toInstr s = some f ∧ f.outcome = .next t ∧
      FromInput p e s t) := by
  obtain ⟨⟨a, fa⟩, ⟨b, fb⟩, ⟨c, fc⟩⟩ := e
  cases fa with
  | false => cases fb <;> cases fc <;> exact Or.inl ⟨rfl, rfl⟩
  | true =>
    refine Or.inr ⟨rfl, ?_⟩
    cases fb with
    | false =>
      obtain ⟨t, ht, hf⟩ := inputThenEnd_cases ⟨⟨a, true⟩, ⟨b, false⟩, ⟨c, fc⟩⟩ s rfl rfl
      cases fc <;> exact ⟨_, t, rfl, ht, hf⟩
    | true =>
      obtain ⟨t, ht, hf⟩ := inputThenOutput_cases ⟨⟨a, true⟩, ⟨b, true⟩, ⟨c, fc⟩⟩ s rfl rfl
      cases fc <;> exact ⟨_, t, rfl, ht, hf⟩

/-- The rest of a step that waits for the sink: which classes have one, and what it can leave. -/
theorem resumeOutput_cases (e : Entry) (s : State) :
    (e.b.hasFunction = false ∧ resumeOutput e.toInstr s = none) ∨
    (e.b.hasFunction = true ∧ ∃ f t, resumeOutput e.toInstr s = some f ∧ f.outcome = .next t ∧ FromOutput e s t) := by
  obtain ⟨⟨a, fa⟩, ⟨b, fb⟩, ⟨c, fc⟩⟩ := e
  cases fb with
  | false => cases fa <;> cases fc <;> exact Or.inl ⟨rfl, rfl⟩
  | true =>
    obtain ⟨t, ht, hf⟩ := outputThenEnd_cases ⟨⟨a, fa⟩, ⟨b, true⟩, ⟨c, fc⟩⟩ s rfl
    refine Or.inr ⟨rfl, ?_⟩
    cases fa <;> cases fc <;> exact ⟨_, t, rfl, ht, hf⟩

/-- The Subleq class: it faults or completes. -/
theorem subleqWith_cases (e : Entry) (s : State) (h0 : e.selector = 0) :
    ∃ t, subleqWith p e.a.value e.b.value e.c.value s = .next t ∧ (StepFaulted p e s t ∨ SubleqDone p e s t) := by
  unfold subleqWith
  have hA : usesA e = true := by simp [usesA, h0]
  have hB : usesB e = true := by simp [usesB, h0]
  by_cases ha : e.a.value ≤ p.addrMax
  swap
  · exact ⟨_, by rw [checkAddress_of_gt (by omega)]; rfl, Or.inl ⟨.addressRange, rfl, by simp,
      fun _ => Or.inl ⟨hA, by omega⟩, by simp⟩⟩
  by_cases hb : e.b.value ≤ p.addrMax
  swap
  · exact ⟨_, by rw [checkAddress_of_le ha, Flow.go_andThen, checkAddress_of_gt (by omega)]; rfl,
      Or.inl ⟨.addressRange, rfl, by simp, fun _ => Or.inr (Or.inl ⟨hB, by omega⟩), by simp⟩⟩
  rw [checkAddress_of_le ha, Flow.go_andThen, checkAddress_of_le hb, Flow.go_andThen]
  unfold subtractAndBranch
  have hd : difference (memRead (countFetch s) e.a.value) (memRead (countFetch s) e.b.value) =
      exactResult e.a.value e.b.value s := rfl
  rw [hd]
  cases hf : narrowResult p (exactResult e.a.value e.b.value s) with
  | none => exact ⟨_, rfl, Or.inl ⟨.arithOverflow, rfl, by simp, by simp, fun _ => h0⟩⟩
  | some r => ?_
  dsimp only
  by_cases hc : branchTaken r = true ∧ p.addrMax < e.c.value
  · exact ⟨_, by rw [checkTarget_stop hc.1 hc.2]; rfl, Or.inl ⟨.addressRange, rfl, by simp,
      fun _ => Or.inr (Or.inr ⟨h0, hc.2⟩), by simp⟩⟩
  have hgo : branchTaken r = true → e.c.value ≤ p.addrMax := fun ht => Nat.le_of_not_lt (fun hlt => hc ⟨ht, hlt⟩)
  rw [checkTarget_go hgo, Flow.go_andThen]
  cases hroom : hasRoom p e.b.value s with
  | false =>
    exact ⟨_, by rw [checkRoom_of_full (by simpa using hroom)]; rfl,
      Or.inl ⟨.storeFull, rfl, fun _ => ⟨_, hb, hroom⟩, by simp, by simp⟩⟩
  | true =>
    exact ⟨_, by rw [checkRoom_of_room (by simpa using hroom)]; rfl,
      Or.inr ⟨h0, ha, hb, r, hf, hgo, hroom, rfl⟩⟩

/-- The function classes without an input phase but with an output phase. -/
theorem checkOutput_cases (e : Entry) (s : State) (ha : e.a.hasFunction = false) (hb : e.b.hasFunction = true) :
    ∃ t, ((checkAddress p e.b.value (countFetch s)).andThen
        (fun u => (outputPhase e.b.value u).andThen (endPhase e))).outcome = .next t ∧
      (StepFaulted p e s t ∨ PhasesInRange p e ∧ FromInput p e (countFetch s) t) := by
  by_cases hB : e.b.value ≤ p.addrMax
  · obtain ⟨t, ht, hf⟩ := outputThenEnd_cases e (countFetch s) hb
    refine ⟨t, by rw [checkAddress_of_le hB, Flow.go_andThen, ht], Or.inr ⟨⟨by simp [ha], fun _ => hB⟩, ?_⟩⟩
    rcases hf with ⟨h1, h2, h3⟩ | ⟨v, hv, hd⟩
    · exact Or.inr (Or.inl ⟨_, Or.inr ⟨ha, rfl⟩, h1, h2, h3⟩)
    · exact Or.inr (Or.inr ⟨_, v, Or.inr ⟨ha, rfl⟩, hv, hd⟩)
  · exact ⟨_, by rw [checkAddress_of_gt (by omega)]; rfl, Or.inl ⟨.addressRange, rfl, by simp,
      fun _ => Or.inr (Or.inl ⟨by simp [usesB, hb], by omega⟩), by simp⟩⟩

/-- The function classes with an input phase alone. -/
theorem checkInput_cases (e : Entry) (s : State) (ha : e.a.hasFunction = true) (hb : e.b.hasFunction = false) :
    ∃ t, (((checkAddress p e.a.value (countFetch s)).andThen (checkRoom p e.a.value)).andThen
        (fun u => (inputPhase p e.a.value u).andThen (endPhase e))).outcome = .next t ∧
      (StepFaulted p e s t ∨ PhasesInRange p e ∧ FromInput p e (countFetch s) t) := by
  by_cases hA : e.a.value ≤ p.addrMax
  swap
  · exact ⟨_, by rw [checkAddress_of_gt (by omega)]; rfl, Or.inl ⟨.addressRange, rfl, by simp,
      fun _ => Or.inl ⟨by simp [usesA, ha], by omega⟩, by simp⟩⟩
  rw [checkAddress_of_le hA, Flow.go_andThen]
  cases hroom : hasRoom p e.a.value s with
  | false =>
    exact ⟨_, by rw [checkRoom_of_full (by simpa using hroom)]; rfl,
      Or.inl ⟨.storeFull, rfl, fun _ => ⟨_, hA, hroom⟩, by simp, by simp⟩⟩
  | true =>
    obtain ⟨t, ht, hf⟩ := inputThenEnd_cases e (countFetch s) ha hb
    exact ⟨t, by rw [checkRoom_of_room (by simpa using hroom), Flow.go_andThen, ht],
      Or.inr ⟨⟨fun _ => hA, by simp [hb]⟩, hf⟩⟩

/-- The function classes with both phases. -/
theorem checkBoth_cases (e : Entry) (s : State) (ha : e.a.hasFunction = true) (hb : e.b.hasFunction = true) :
    ∃ t, ((((checkAddress p e.a.value (countFetch s)).andThen (checkAddress p e.b.value)).andThen
        (checkRoom p e.a.value)).andThen (fun u => (inputPhase p e.a.value u).andThen
          (fun v => (outputPhase e.b.value v).andThen (endPhase e)))).outcome = .next t ∧
      (StepFaulted p e s t ∨ PhasesInRange p e ∧ FromInput p e (countFetch s) t) := by
  by_cases hA : e.a.value ≤ p.addrMax
  swap
  · exact ⟨_, by rw [checkAddress_of_gt (by omega)]; rfl, Or.inl ⟨.addressRange, rfl, by simp,
      fun _ => Or.inl ⟨by simp [usesA, ha], by omega⟩, by simp⟩⟩
  by_cases hB : e.b.value ≤ p.addrMax
  swap
  · exact ⟨_, by rw [checkAddress_of_le hA, Flow.go_andThen, checkAddress_of_gt (by omega)]; rfl,
      Or.inl ⟨.addressRange, rfl, by simp, fun _ => Or.inr (Or.inl ⟨by simp [usesB, hb], by omega⟩), by simp⟩⟩
  rw [checkAddress_of_le hA, Flow.go_andThen, checkAddress_of_le hB, Flow.go_andThen]
  cases hroom : hasRoom p e.a.value s with
  | false =>
    exact ⟨_, by rw [checkRoom_of_full (by simpa using hroom)]; rfl,
      Or.inl ⟨.storeFull, rfl, fun _ => ⟨_, hA, hroom⟩, by simp, by simp⟩⟩
  | true =>
    obtain ⟨t, ht, hf⟩ := inputThenOutput_cases e (countFetch s) ha hb
    exact ⟨t, by rw [checkRoom_of_room (by simpa using hroom), Flow.go_andThen, ht],
      Or.inr ⟨⟨fun _ => hA, fun _ => hB⟩, hf⟩⟩

/-- All that a step of an entry can do: it faults; or it is a Subleq step that completes; or its checks have passed and
its phases run, as far as the collaborators answer. -/
theorem execWith_cases (e : Entry) (s : State) :
    ∃ t, execWith p e.toInstr s = .next t ∧
      (StepFaulted p e s t ∨ SubleqDone p e s t ∨
        (e.selector ≠ 0 ∧ PhasesInRange p e ∧ FromInput p e (countFetch s) t)) := by
  obtain ⟨⟨a, fa⟩, ⟨b, fb⟩, ⟨c, fc⟩⟩ := e
  cases fa with
  | false =>
    cases fb with
    | false =>
      cases fc with
      | false =>
        obtain ⟨t, ht, h | h⟩ := subleqWith_cases ⟨⟨a, false⟩, ⟨b, false⟩, ⟨c, false⟩⟩ s rfl
        · exact ⟨t, ht, Or.inl h⟩
        · exact ⟨t, ht, Or.inr (Or.inl h)⟩
      | true =>
        refine ⟨_, rfl, Or.inr (Or.inr ⟨by simp [Entry.selector], by simp [PhasesInRange],
          Or.inr (Or.inr ⟨_, _, Or.inr ⟨rfl, rfl⟩, Or.inr ⟨rfl, rfl⟩, Or.inl ⟨rfl, rfl⟩⟩)⟩)⟩
    | true =>
      obtain ⟨t, ht, h⟩ := checkOutput_cases ⟨⟨a, false⟩, ⟨b, true⟩, ⟨c, fc⟩⟩ s rfl rfl
      have hs : Entry.selector ⟨⟨a, false⟩, ⟨b, true⟩, ⟨c, fc⟩⟩ ≠ 0 := by simp [Entry.selector]
      refine ⟨t, ?_, h.imp id (fun h => Or.inr ⟨hs, h⟩)⟩
      cases fc <;> exact ht
  | true =>
    have hs : ∀ fb, Entry.selector ⟨⟨a, true⟩, ⟨b, fb⟩, ⟨c, fc⟩⟩ ≠ 0 := by simp [Entry.selector]
    cases fb with
    | false =>
      obtain ⟨t, ht, h⟩ := checkInput_cases ⟨⟨a, true⟩, ⟨b, false⟩, ⟨c, fc⟩⟩ s rfl rfl
      refine ⟨t, ?_, h.imp id (fun h => Or.inr ⟨hs _, h⟩)⟩
      cases fc <;> exact ht
    | true =>
      obtain ⟨t, ht, h⟩ := checkBoth_cases ⟨⟨a, true⟩, ⟨b, true⟩, ⟨c, fc⟩⟩ s rfl rfl
      refine ⟨t, ?_, h.imp id (fun h => Or.inr ⟨hs _, h⟩)⟩
      cases fc <;> exact ht

/-- The form of `execWith_cases` that starts from a known next state. -/
theorem execWith_inv {e : Entry} {s t : State} (h : execWith p e.toInstr s = .next t) :
    StepFaulted p e s t ∨ SubleqDone p e s t ∨
      (e.selector ≠ 0 ∧ PhasesInRange p e ∧ FromInput p e (countFetch s) t) := by
  obtain ⟨u, hu, hc⟩ := execWith_cases (p := p) e s
  rw [h] at hu
  cases hu
  exact hc

theorem exec_inv {e : Entry} {s t : State} (h : exec e.toInstr s = .next t) :
    StepFaulted Config.hw e s t ∨ SubleqDone Config.hw e s t ∨
      (e.selector ≠ 0 ∧ PhasesInRange Config.hw e ∧ FromInput Config.hw e (countFetch s) t) :=
  execWith_inv (exec_toInstr e s ▸ h)

/-- Every instruction is some entry's. -/
theorem exec_toEntry (i : Instr) (s : State) : exec i s = exec i.toEntry.toInstr s := by
  cases i <;> rfl

/-- `exec` always answers a next state. -/
theorem exec_next (i : Instr) (s : State) : ∃ t, exec i s = .next t := by
  rw [exec_toEntry, exec_toInstr]
  exact (execWith_cases _ s).imp fun _ h => h.1

/-! ### A step is its checks, and then what a waiting step would take up -/

/-- An input class whose checks pass is, from the counted state, the rest of a step from its input phase on. -/
theorem execWith_of_input {e : Entry} {s : State} (ha : e.a.hasFunction = true) (hp : PhasesInRange p e)
    (hroom : hasRoom p e.a.value s = true) :
    ∃ f, resumeInput p e.toInstr (countFetch s) = some f ∧ execWith p e.toInstr s = f.outcome := by
  obtain ⟨⟨a, fa⟩, ⟨b, fb⟩, ⟨c, fc⟩⟩ := e
  obtain rfl : fa = true := ha
  have hA : a ≤ p.addrMax := hp.1 rfl
  have hR : checkRoom p a (countFetch s) = .go (countFetch s) := checkRoom_of_room hroom
  cases fb with
  | false =>
    cases fc <;> refine ⟨_, rfl, ?_⟩ <;>
      simp only [Entry.toInstr, execWith, inpWith, inpHaltWith, checkAddress_of_le hA, Flow.go_andThen, hR]
  | true =>
    have hB : b ≤ p.addrMax := hp.2 rfl
    cases fc <;> refine ⟨_, rfl, ?_⟩ <;>
      simp only [Entry.toInstr, execWith, inpOutWith, inpOutHaltWith, checkAddress_of_le hA, checkAddress_of_le hB,
        Flow.go_andThen, hR]

/-- An output class without input whose check passes is, from the counted state, the rest of a step from its output
phase on. -/
theorem execWith_of_output {e : Entry} {s : State} (ha : e.a.hasFunction = false) (hb : e.b.hasFunction = true)
    (hp : PhasesInRange p e) :
    ∃ f, resumeOutput e.toInstr (countFetch s) = some f ∧ execWith p e.toInstr s = f.outcome := by
  obtain ⟨⟨a, fa⟩, ⟨b, fb⟩, ⟨c, fc⟩⟩ := e
  obtain rfl : fa = false := ha
  obtain rfl : fb = true := hb
  have hB : b ≤ p.addrMax := hp.2 rfl
  cases fc <;> refine ⟨_, rfl, ?_⟩ <;>
    simp only [Entry.toInstr, execWith, outWith, outHaltWith, checkAddress_of_le hB, Flow.go_andThen]

/-- With an answer there, the rest of a step of both phases is, from the written state, the rest from its output phase
on. -/
theorem resumeInput_of_both {e : Entry} {s : State} (ha : e.a.hasFunction = true) (hb : e.b.hasFunction = true)
    {x : InAnswer} {rest : List InAnswer} (hi : s.input = x :: rest) :
    resumeInput p e.toInstr s = resumeOutput e.toInstr
      (memWrite e.a.value (inputValue p x) { s with input := rest, seq := .loop }) := by
  obtain ⟨⟨a, fa⟩, ⟨b, fb⟩, ⟨c, fc⟩⟩ := e
  obtain rfl : fa = true := ha
  obtain rfl : fb = true := hb
  cases fc <;> simp only [Entry.toInstr, resumeInput, resumeOutput, inpOutFromInput, inpOutHaltFromInput,
    inputPhase_answered _ _ hi, Flow.go_andThen]

/-- With an answer there, what `SEQ` was before the input phase does not matter. -/
theorem resumeInput_seq {i : Instr} {s : State} (q : SeqState) {x : InAnswer} {rest : List InAnswer}
    (hi : s.input = x :: rest) :
    resumeInput p i { s with seq := q } = resumeInput p i s := by
  have h : ∀ a, inputPhase p a { s with seq := q } = inputPhase p a s := by
    intro a
    rw [inputPhase_answered _ _ (s := { s with seq := q }) hi, inputPhase_answered _ _ hi]
  cases i <;> simp only [resumeInput, inpFromInput, inpHaltFromInput, inpOutFromInput, inpOutHaltFromInput, h]

/-- With the sink ready, what `SEQ` was before the output phase does not matter. -/
theorem resumeOutput_seq {i : Instr} {s : State} (q : SeqState) (hr : s.sinkReady = true) :
    resumeOutput i { s with seq := q } = resumeOutput i s := by
  have h : ∀ b, outputPhase b { s with seq := q } = outputPhase b s := by
    intro b
    rw [outputPhase_ready _ (s := { s with seq := q }) hr, outputPhase_ready _ hr]
    rfl
  cases i <;> simp only [resumeOutput, outFromOutput, outHaltFromOutput, inpOutFromOutput, inpOutHaltFromOutput, h]

/-! ### Turns -/

/-- The run loop's tests, one by one. -/
theorem loopTest_cases (s : State) :
    (s.tr ≠ .none ∧ loopTest p s = some (leaveLoop s)) ∨
    (s.tr = .none ∧ s.halted = true ∧ loopTest p s = some (endRun .haltInstruction s)) ∨
    (s.tr = .none ∧ s.halted = false ∧ pcInRange s = false ∧
      loopTest p s = some (endRun .programCounterOutOfRange s)) ∨
    (s.tr = .none ∧ s.halted = false ∧ pcInRange s = true ∧ p.cap ≤ s.instructionCount ∧
      loopTest p s = some (endRun .instructionCapExceeded s)) ∨
    (s.tr = .none ∧ s.halted = false ∧ pcInRange s = true ∧ s.instructionCount < p.cap ∧ s.stopReq = true ∧
      loopTest p s = some (leaveLoop s)) ∨
    (s.tr = .none ∧ s.halted = false ∧ pcInRange s = true ∧ s.instructionCount < p.cap ∧ s.stopReq = false ∧
      loopTest p s = none) := by
  unfold loopTest
  by_cases h1 : s.tr = .none <;> cases h2 : s.halted <;> cases h3 : pcInRange s <;>
    by_cases h4 : p.cap ≤ s.instructionCount <;> cases h5 : s.stopReq <;> simp_all

variable {run : Instr → State → Host.Outcome State Fault Refusal}

/-- One round of the run loop: a test ends it, or the instruction at `pc` has its step. -/
theorem loopTurn_cases (s : State) :
    (∃ t, loopTest p s = some t ∧ loopTurn p run s = .next t) ∨
    (s.tr = .none ∧ s.halted = false ∧ pcInRange s = true ∧ s.instructionCount < p.cap ∧ s.stopReq = false ∧
      ∃ e, fetchEntry s = some e ∧ loopTurn p run s = run e.toInstr s) := by
  rcases loopTest_cases s with ⟨_, h⟩ | ⟨_, _, h⟩ | ⟨_, _, _, h⟩ | ⟨_, _, _, _, h⟩ | ⟨_, _, _, _, _, h⟩ |
    ⟨h1, h2, h3, h4, h5, h⟩
  all_goals first
    | exact Or.inl ⟨_, h, by simp only [loopTurn, h]⟩
    | skip
  obtain ⟨e, he⟩ := fetchEntry_isSome h3
  exact Or.inr ⟨h1, h2, h3, h4, h5, e, he, by simp only [loopTurn, h, he]⟩

/-- What a turn of the core can leave, by `SEQ`. -/
inductive CoreMoves (p : Params) (run : Instr → State → Host.Outcome State Fault Refusal) (s t : State) :
    Prop where
  /-- Idle: nothing. -/
  | idle (hseq : s.seq = .idle) (ht : t = s)
  /-- A test of the run loop ends the run. -/
  | leaves (hseq : s.seq = .loop) (ht : loopTest p s = some t)
  /-- A step is issued. -/
  | steps (hseq : s.seq = .loop) (htr : s.tr = .none) (hhalt : s.halted = false) (hpc : pcInRange s = true)
      (hcount : s.instructionCount < p.cap) (hstop : s.stopReq = false) (e : Entry)
      (he : fetchEntry s = some e) (hx : run e.toInstr s = .next t)
  /-- A step that waited for input goes on. -/
  | resumesInput (hseq : s.seq = .waitIn) (e : Entry) (he : fetchEntry s = some e) (ha : e.a.hasFunction = true)
      (hx : FromInput p e s t)
  /-- A step that waited for the sink goes on. -/
  | resumesOutput (hseq : s.seq = .waitOut) (e : Entry) (he : fetchEntry s = some e) (hb : e.b.hasFunction = true)
      (hx : FromOutput e s t)

theorem coreTurn_inv {s t : State} (h : coreTurn p run s = .next t) : CoreMoves p run s t := by
  unfold coreTurn at h
  cases hseq : s.seq with
  | idle =>
    simp only [hseq, Host.Outcome.next.injEq] at h
    exact .idle hseq h.symm
  | loop =>
    simp only [hseq] at h
    rcases loopTurn_cases s with ⟨u, hu, hl⟩ | ⟨h1, h2, h3, h4, h5, e, he, hl⟩
    · rw [hl] at h
      cases h
      exact .leaves hseq hu
    · exact .steps hseq h1 h2 h3 h4 h5 e he (hl ▸ h)
  | waitIn =>
    simp only [hseq, resumeStep] at h
    cases he : fetchEntry s with
    | none => simp [he] at h
    | some e =>
      rcases resumeInput_cases (p := p) e s with ⟨-, hn⟩ | ⟨ha, f, u, hf, hu, hx⟩
      · simp [he, hn] at h
      · simp only [he, hf, hu, Host.Outcome.next.injEq] at h
        exact .resumesInput hseq e he ha (h ▸ hx)
  | waitOut =>
    simp only [hseq, resumeStep] at h
    cases he : fetchEntry s with
    | none => simp [he] at h
    | some e =>
      rcases resumeOutput_cases e s with ⟨-, hn⟩ | ⟨hb, f, u, hf, hu, hx⟩
      · simp [he, hn] at h
      · simp only [he, hf, hu, Host.Outcome.next.injEq] at h
        exact .resumesOutput hseq e he hb (h ▸ hx)

/-- What a step of the machine can do: the core has its turn, or one outside event lands. -/
inductive Moves (p : Params) (run : Instr → State → Host.Outcome State Fault Refusal) (s t : State) : Prop where
  | core (r : List Event) (hr : s.script = [] ∧ r = [] ∨ s.script = .core :: r)
      (ht : coreTurn p run { s with script := r } = .next t)
  | host (cmd : HostCommand) (r : List Event) (hr : s.script = .host cmd :: r)
      (ht : t = hostCommand p cmd { s with script := r })
  | answer (x : InAnswer) (r : List Event) (hr : s.script = .inputAnswer x :: r)
      (ht : t = { s with script := r, input := s.input ++ [x] })
  | sink (b : Bool) (r : List Event) (hr : s.script = .sinkReady b :: r)
      (ht : t = { s with script := r, sinkReady := b })

theorem machineTurn_inv {s t : State} (h : machineTurn p run s = .next t) : Moves p run s t := by
  unfold machineTurn at h
  cases hs : s.script with
  | nil =>
    simp only [hs] at h
    exact .core [] (Or.inl ⟨hs, rfl⟩) (by rw [← hs]; exact h)
  | cons e r =>
    simp only [hs] at h
    cases e with
    | core => exact .core r (Or.inr hs) h
    | host cmd =>
      simp only [eventTurn, Host.Outcome.next.injEq] at h
      exact .host cmd r hs h.symm
    | inputAnswer x =>
      simp only [eventTurn, Host.Outcome.next.injEq] at h
      exact .answer x r hs h.symm
    | sinkReady b =>
      simp only [eventTurn, Host.Outcome.next.injEq] at h
      exact .sink b r hs h.symm

theorem step_inv {s t : State} (h : step s = .next t) : Moves Config.hw exec s t := machineTurn_inv h

theorem stepWith_inv {s t : State} (h : stepWith p s = .next t) : Moves p (execWith p) s t := machineTurn_inv h

/-! ### What the core does when it has the turn -/

theorem step_core {s : State} (h : s.script = []) : step s = coreTurn Config.hw exec s := by
  simp only [step, machineTurn, h]

theorem step_host {s : State} {cmd : HostCommand} {r : List Event} (h : s.script = .host cmd :: r) :
    step s = .next (hostCommand Config.hw cmd { s with script := r }) := by
  simp only [step, machineTurn, h, eventTurn]

theorem coreTurn_waitIn {s : State} {e : Entry} {f : Flow} (hseq : s.seq = .waitIn) (he : fetchEntry s = some e)
    (hf : resumeInput p e.toInstr s = some f) : coreTurn p run s = f.outcome := by
  simp only [coreTurn, hseq, resumeStep, he, hf]

theorem coreTurn_waitOut {s : State} {e : Entry} {f : Flow} (hseq : s.seq = .waitOut) (he : fetchEntry s = some e)
    (hf : resumeOutput e.toInstr s = some f) : coreTurn p run s = f.outcome := by
  simp only [coreTurn, hseq, resumeStep, he, hf]

/-- When the run loop issues a step, the core's turn is that step. -/
theorem coreTurn_issues {s : State} {e : Entry} (h : StepIssued s) (he : fetchEntry s = some e) :
    coreTurn Config.hw run s = run e.toInstr s := by
  have hpc : pcInRange s = true := pcInRange_iff.mpr ⟨h.pcLow, h.pcHigh⟩
  have hc : ¬ Config.hw.cap ≤ s.instructionCount := Nat.not_le.mpr h.count
  simp [coreTurn, h.seq, loopTurn, loopTest, h.tr, h.halted, hpc, hc, h.stopReq, he]

theorem coreTurn_leaves {s t : State} (hseq : s.seq = .loop) (ht : loopTest p s = some t) :
    coreTurn p run s = .next t := by
  simp only [coreTurn, hseq, loopTurn, ht]

end Sys2Proof.Machine
end

