-- ==== Sys2Proof/Laws/Frames.lean ====
section
/-! SUPPORT. What a part of a step, a host command and an end of the run loop leave alone, said once for every class;
and the small lemmas by which several steps of the machine are followed. -/

namespace Sys2Proof.Machine

variable {p : Params}

/-! ### Several steps -/

theorem step_coreEvent {s : State} {rest : List Event} (h : s.script = .core :: rest) :
    step s = coreTurn Config.hw exec { s with script := rest } := by
  simp only [step, machineTurn, h, eventTurn]

theorem run_zero (s : State) : Host.Core.run Sys2Proof.core 0 s = .next s := rfl

theorem run_succ {s t : State} (h : step s = .next t) (k : Nat) :
    Host.Core.run Sys2Proof.core (k + 1) s = Host.Core.run Sys2Proof.core k t := by
  simp only [Host.Core.run]
  rw [show Sys2Proof.core.step s = .next t from h]

/-- A state that a step leaves as it is stays for ever. -/
theorem run_fixed {s : State} (h : step s = .next s) (k : Nat) : Host.Core.run Sys2Proof.core k s = .next s := by
  induction k with
  | zero => rfl
  | succ k ih => rw [run_succ h, ih]

/-! ### The phases of a step -/

/-- From its output phase on, a step is one without an input phase. -/
theorem fromInput_of_fromOutput {e : Entry} {s t : State} (h : FromOutput e s t) :
    FromInput p ⟨⟨e.a.value, false⟩, e.b, e.c⟩ s t := by
  rcases h with ⟨hb, hr, ht⟩ | ⟨v, hv, hd⟩
  · exact Or.inr (Or.inl ⟨_, Or.inr ⟨rfl, rfl⟩, hb, hr, ht⟩)
  · exact Or.inr (Or.inr ⟨_, v, Or.inr ⟨rfl, rfl⟩, hv, hd⟩)

/-- What the phases of a step leave alone, and how they move the rest. -/
structure PhaseFrame (p : Params) (e : Entry) (s t : State) : Prop where
  irf       : t.irf = s.irf
  tr        : t.tr = s.tr
  ls        : t.ls = s.ls
  count     : t.instructionCount = s.instructionCount
  script    : t.script = s.script
  replies   : t.replies = s.replies
  stopReq   : t.stopReq = s.stopReq
  sinkReady : t.sinkReady = s.sinkReady
  halted    : t.halted = s.halted ∨ (e.c.hasFunction = true ∧ t.halted = true ∧ t.pc = s.pc)
  pc        : t.pc = s.pc ∨ t.pc = s.pc + 1
  input     : t.input = s.input ∨ ∃ x, s.input = x :: t.input
  output    : t.output = s.output ∨ ∃ y, t.output = s.output ++ [y]
  store     : (t.mem = s.mem ∧ t.footprint = s.footprint) ∨
    ∃ x, x ∈ s.input ∧ e.a.hasFunction = true ∧ t.mem = s.mem.write e.a.value (inputValue p x) ∧
      t.footprint = s.footprint.insert e.a.value
  seq       : (t.seq = s.seq ∧ e.a.hasFunction = false ∧ e.b.hasFunction = false) ∨ t.seq = .loop ∨
    (t.seq = .waitIn ∧ e.a.hasFunction = true ∧ t.pc = s.pc ∧ t.halted = s.halted) ∨
    (t.seq = .waitOut ∧ e.b.hasFunction = true ∧ t.pc = s.pc ∧ t.halted = s.halted)

theorem fromInput_frame {e : Entry} {s t : State} (h : FromInput p e s t) : PhaseFrame p e s t := by
  rcases h with ⟨ha, -, rfl⟩ | ⟨u, hu, hb, -, rfl⟩ | ⟨u, v, hu, hv, hd⟩
  · constructor <;> simp [ha]
  · rcases hu with ⟨ha, x, rest, hx, rfl⟩ | ⟨ha, rfl⟩
    · constructor <;> simp [hx, memWrite, ha, hb]
    · constructor <;> simp [ha, hb]
  · rcases hu with ⟨ha, x, rest, hx, rfl⟩ | ⟨ha, rfl⟩ <;> rcases hv with ⟨hb, hr, rfl⟩ | ⟨hb, rfl⟩ <;>
      rcases hd with ⟨hc, rfl⟩ | ⟨hc, rfl⟩
    all_goals constructor
    all_goals simp_all [memWrite]

theorem fromOutput_frame {e : Entry} {s t : State} (h : FromOutput e s t) :
    PhaseFrame p ⟨⟨e.a.value, false⟩, e.b, e.c⟩ s t := fromInput_frame (fromInput_of_fromOutput h)

/-! ### Waiting -/

/-- A step that ends in `WAIT_IN` has passed its range checks and done nothing but its count. -/
theorem execWith_waitIn {e : Entry} {s t : State} (h : execWith p e.toInstr s = .next t) (ht : t.seq = .waitIn)
    (ha : e.a.hasFunction = true) :
    PhasesInRange p e ∧ s.input = [] ∧ t = { countFetch s with seq := .waitIn } := by
  rcases execWith_inv h with ⟨k, rfl, -⟩ | hsub | ⟨-, hp, hfi⟩
  · simp at ht
  · have := hsub.1
    simp [Entry.selector, ha] at this
  refine ⟨hp, ?_⟩
  rcases hfi with ⟨-, hi, rfl⟩ | ⟨u, -, -, -, rfl⟩ | ⟨u, v, hu, hv, hd⟩
  · exact ⟨hi, rfl⟩
  · simp at ht
  · exfalso
    rcases hu with ⟨-, x, rest, hx, rfl⟩ | ⟨hn, rfl⟩
    · rcases hv with ⟨hb, hr, rfl⟩ | ⟨hb, rfl⟩ <;> rcases hd with ⟨-, rfl⟩ | ⟨-, rfl⟩ <;> simp at ht
    · simp [ha] at hn

/-- An input class's step that went on past its checks found a store entry. -/
theorem hasRoom_of_execWith {e : Entry} {s t : State} (h : execWith p e.toInstr s = .next t) (ht : t.seq ≠ .idle)
    (ha : e.a.hasFunction = true) (hp : PhasesInRange p e) : hasRoom p e.a.value s = true := by
  cases hroom : hasRoom p e.a.value s with
  | true => rfl
  | false =>
    exfalso
    have hf := checkRoom_of_full (p := p) (x := e.a.value) (s := countFetch s) (by simpa using hroom)
    obtain ⟨⟨a, fa⟩, ⟨b, fb⟩, ⟨c, fc⟩⟩ := e
    obtain rfl : fa = true := ha
    have hA : a ≤ p.addrMax := hp.1 rfl
    have hB : fb = true → b ≤ p.addrMax := hp.2
    dsimp only at hf
    cases fb
    · cases fc <;>
        simp only [Entry.toInstr, execWith, inpWith, inpHaltWith, checkAddress_of_le hA, Flow.go_andThen, hf,
          Flow.stop_andThen, Flow.stop_outcome, Host.Outcome.next.injEq] at h <;>
        exact ht (h ▸ rfl)
    · cases fc <;>
        simp only [Entry.toInstr, execWith, inpOutWith, inpOutHaltWith, checkAddress_of_le hA,
          checkAddress_of_le (hB rfl), Flow.go_andThen, hf, Flow.stop_andThen, Flow.stop_outcome,
          Host.Outcome.next.injEq] at h <;>
        exact ht (h ▸ rfl)

/-- A step that ends in a wait state has changed nothing that READ_STATUS shows but its count. -/
theorem execWith_waits {e : Entry} {s t : State} (h : execWith p e.toInstr s = .next t)
    (ht : t.seq = .waitIn ∨ t.seq = .waitOut) (hs : s.seq = .loop) :
    t.ls = s.ls ∧ t.tr = s.tr ∧ t.halted = s.halted ∧ t.pc = s.pc ∧ t.instructionCount = s.instructionCount + 1 ∧
      t.script = s.script := by
  rcases execWith_inv h with ⟨k, rfl, -⟩ | ⟨-, -, -, r, -, -, -, rfl⟩ | ⟨-, -, hfi⟩
  · simp at ht
  · simp [countFetch, hs] at ht
  have f := fromInput_frame hfi
  rcases f.seq with ⟨hq, -, -⟩ | hq | ⟨-, -, hpc, hh⟩ | ⟨-, -, hpc, hh⟩
  · simp [hq, countFetch, hs] at ht
  · simp [hq] at ht
  · exact ⟨f.ls, f.tr, hh, hpc, f.count, f.script⟩
  · exact ⟨f.ls, f.tr, hh, hpc, f.count, f.script⟩

/-- With an answer and an acknowledgement there, the rest of a step completes, and a pending STOP stays pending. -/
theorem resumeInput_completes {e : Entry} {s : State} (ha : e.a.hasFunction = true) {x : InAnswer}
    {rest : List InAnswer} (hi : s.input = x :: rest) (hr : s.sinkReady = true) :
    ∃ w, resumeInput p e.toInstr s = some (.go w) ∧
      resumeInput p e.toInstr { s with stopReq := true } = some (.go { w with stopReq := true }) ∧
      w.script = s.script ∧ w.seq = .loop ∧ w.tr = s.tr := by
  obtain ⟨⟨a, fa⟩, ⟨b, fb⟩, ⟨c, fc⟩⟩ := e
  obtain rfl : fa = true := ha
  have h1 := inputPhase_answered p a hi
  have h2 := inputPhase_answered p a (s := { s with stopReq := true }) hi
  let u : State := memWrite a (inputValue p x) { s with input := rest, seq := .loop }
  have h3 := outputPhase_ready b (s := u) hr
  have h4 := outputPhase_ready b (s := { u with stopReq := true }) hr
  cases fb <;> cases fc <;>
    simp only [Entry.toInstr, resumeInput, inpFromInput, inpHaltFromInput, inpOutFromInput, inpOutHaltFromInput, h1, h2,
      Flow.go_andThen] <;>
    first
      | exact ⟨_, rfl, rfl, rfl, rfl, rfl⟩
      | refine ⟨_, congrArg (fun f => some (Flow.andThen f _)) h3, congrArg (fun f => some (Flow.andThen f _)) h4, ?_⟩
        exact ⟨rfl, rfl, rfl⟩

/-- A part of a step's end, with the STOP latch set to a value. -/
def Flow.withStop (stop : Bool) : Flow → Flow
  | .go s => .go { s with stopReq := stop }
  | .stop s => .stop { s with stopReq := stop }

theorem Flow.outcome_withStop {f : Flow} {t : State} (h : f.outcome = .next t) (stop : Bool) :
    (f.withStop stop).outcome = .next { t with stopReq := stop } := by
  cases f <;> cases h <;> rfl

/-- The rest of a step that waits for input does the same whatever the STOP latch holds (40_engine.md R85). -/
theorem resumeInput_withStop (i : Instr) (s : State) (stop : Bool) :
    resumeInput p i { s with stopReq := stop } = (resumeInput p i s).map (Flow.withStop stop) := by
  cases i <;>
    simp only [resumeInput, inpFromInput, inpHaltFromInput, inpOutFromInput, inpOutHaltFromInput, inputPhase,
      Option.map] <;>
    (cases s.input <;> cases s.sinkReady <;> rfl)

/-- The rest of a step that waits for the sink does the same whatever the STOP latch holds (40_engine.md R85). -/
theorem resumeOutput_withStop (i : Instr) (s : State) (stop : Bool) :
    resumeOutput i { s with stopReq := stop } = (resumeOutput i s).map (Flow.withStop stop) := by
  cases i <;>
    simp only [resumeOutput, outFromOutput, outHaltFromOutput, inpOutFromOutput, inpOutHaltFromOutput, outputPhase,
      Option.map] <;>
    (cases s.sinkReady <;> rfl)

/-! ### Host commands and the end of the run loop -/

/-- No host command but LOAD writes the core's program, store, counters or `TR`. -/
theorem hostCommand_frame {cmd : HostCommand} {s : State} {r : List Event} (hl : nextIsLoad s = false)
    (hr : s.script = .host cmd :: r) :
    let t := hostCommand p cmd { s with script := r }
    t.irf = s.irf ∧ t.ls = s.ls ∧ t.mem = s.mem ∧ t.footprint = s.footprint ∧ t.pc = s.pc ∧ t.halted = s.halted ∧
      t.instructionCount = s.instructionCount ∧ t.tr = s.tr ∧ t.output = s.output ∧ t.input = s.input ∧
      t.sinkReady = s.sinkReady ∧ t.script = r := by
  cases cmd with
  | load src => simp [nextIsLoad, hr] at hl
  | run => simp only [hostCommand, hostRun]; split <;> simp [refuseCommand, answerHost]
  | stop => simp only [hostCommand, hostStop]; split <;> simp [refuseCommand, answerHost]
  | readStatus => simp [hostCommand, hostReadStatus, answerHost]
  | readMem x => simp only [hostCommand, hostReadMem]; split <;> simp [refuseCommand, answerHost]

/-- The run loop ends with one reason, which is `TR`'s own where that was set. -/
theorem loopTest_exit {s t : State} (h : loopTest p s = some t) :
    ∃ r, t = loopExit r s ∧ (s.tr ≠ .none → r = s.tr) := by
  rcases loopTest_cases s with ⟨-, h'⟩ | ⟨hn, -, h'⟩ | ⟨hn, -, -, h'⟩ | ⟨hn, -, -, -, h'⟩ | ⟨hn, -, -, -, -, h'⟩ |
    ⟨hn, -, -, -, -, h'⟩ <;> rw [h'] at h <;> cases h
  · exact ⟨s.tr, rfl, fun _ => rfl⟩
  all_goals exact ⟨_, rfl, fun h => absurd hn h⟩

/-! ### The next index -/

/-- From an index inside a program that fits the IRF, the next index is one of `0..ADDR_MAX` (40_engine.md R87). -/
theorem pc_succ_bounds (hp : p.irfCap ≤ p.addrMax) {s : State} (hirf : s.irf.length ≤ p.irfCap) {e : Entry}
    (he : fetchEntry s = some e) : 0 ≤ s.pc + 1 ∧ s.pc + 1 ≤ p.addrMax := by
  have hr := pcInRange_iff.mp (fetchEntry_some_iff.mp he).1
  omega

end Sys2Proof.Machine
end

