-- ==== Sys2Proof/Laws/PerInstr.lean ====
section
/-! SUPPORT. The statements made of every instruction as syntax, one lemma per constructor. -/

namespace Sys2Proof.Laws

/-- The instruction is well-formed, it is its entry's, and its selector, as a word of the opcode table, decodes to an
instruction of its class (30_encoding.md R64). -/
def Selector.Statement (i : Instr) : Prop :=
  i.wellFormed = true ∧ i.toEntry.toInstr = i ∧
  (decodeTableWord 3 i.toEntry.selector).map (fun j => j.toEntry.selector) = some i.toEntry.selector

/-- Each table word decodes to an instruction of its own class. -/
theorem Selector.tableWord :
    ∀ w : Fin 8, (decodeTableWord 3 w.val).map (fun j => j.toEntry.selector) = some w.val := by decide

theorem Selector.subleq (a b c : Nat) : Selector.Statement (.subleq a b c) :=
  ⟨rfl, rfl, Selector.tableWord 0⟩

theorem Selector.halt (a b c : Nat) : Selector.Statement (.halt a b c) :=
  ⟨rfl, rfl, Selector.tableWord 1⟩

theorem Selector.out (a b c : Nat) : Selector.Statement (.out a b c) :=
  ⟨rfl, rfl, Selector.tableWord 2⟩

theorem Selector.outHalt (a b c : Nat) : Selector.Statement (.outHalt a b c) :=
  ⟨rfl, rfl, Selector.tableWord 3⟩

theorem Selector.inp (a b c : Nat) : Selector.Statement (.inp a b c) :=
  ⟨rfl, rfl, Selector.tableWord 4⟩

theorem Selector.inpHalt (a b c : Nat) : Selector.Statement (.inpHalt a b c) :=
  ⟨rfl, rfl, Selector.tableWord 5⟩

theorem Selector.inpOut (a b c : Nat) : Selector.Statement (.inpOut a b c) :=
  ⟨rfl, rfl, Selector.tableWord 6⟩

theorem Selector.inpOutHalt (a b c : Nat) : Selector.Statement (.inpOutHalt a b c) :=
  ⟨rfl, rfl, Selector.tableWord 7⟩

end Sys2Proof.Laws
end

