-- ==== Sys2Proof/Tests/Slice0.lean ====
section
/-! SUPPORT. The model's own tests. Expected values are the spec's: 95_test_vectors.md (the vector's number stands in each
test's comment), 00_scope.md, 30_encoding.md. After them, a witness for the hypotheses of every statement that has some. -/

namespace Sys2Proof.Tests

open Sys2Proof Sys2Proof.Machine Sys2Proof.Config

/-! ### Helpers -/

/-- A loaded and running machine with a program. -/
def running (es : List Entry) : State := { State.reset with irf := es, ls := .loaded, seq := .loop }

/-- The start of a one-step vector: `pc`, `M` (and the same `F`), the answers of the input source. -/
def start (pc : Nat) (m : List (Nat × Int)) (input : List InAnswer) : State :=
  { running [] with pc := pc, mem := m, footprint := m.map Prod.fst, input := input }

/-- What a vector shows of a step's end. -/
structure View where
  pc     : Int
  mem    : List (Nat × Int)
  output : List Nat
  left   : Nat
  halted : Bool
  tr     : TermReason
  deriving DecidableEq, Repr

def view (o : Host.Outcome State Fault Refusal) : Option View :=
  match o with
  | .next s => some ⟨s.pc, s.mem, s.output.map BitVec.toNat, s.input.length, s.halted, s.tr⟩
  | .fault _ => none
  | .refused _ => none

/-- A step's end, seen by one test of its state. -/
def holdsAfter (o : Host.Outcome State Fault Refusal) (p : State → Bool) : Bool :=
  match o with
  | .next s => p s
  | .fault _ => false
  | .refused _ => false

/-! ### WellFormed: what it refuses -/

theorem test_illFormed_params : Params.wellFormed { hw with irfCap := hw.addrMax + 1 } = false := by decide

/-- An input byte must fit a cell: 0 to 255 needs nine bits, -128 to 127 eight. -/
theorem test_illFormed_width :
    Params.wellFormed { hw with cellW := 8, irfCap := 127 } = false ∧
    Params.wellFormed { hw with cellW := 7, irfCap := 63, inExt := .sign } = false ∧
    Params.wellFormed { hw with cellW := 8, irfCap := 127, inExt := .sign } = true := by decide

theorem test_wellFormed_hardware : Params.wellFormed hw = true := by decide

theorem test_illFormed_empty_program : programWellFormed hw [] = false := by decide

theorem test_illFormed_long_program :
    programFits { hw with irfCap := 1 } [(Instr.halt 0 0 0).toEntry, (Instr.halt 0 0 0).toEntry] = false := by
  decide

/-! ### Decoding, from words written out bit by bit (41_instruction_classes.md, the table's examples) -/

/-- Segments 0001 00, 0010 00, 0011 00. -/
theorem test_decode_subleq :
    decodeSource hw "000100 001000 001100".toList = .ok [(Instr.subleq 1 2 3).toEntry] := by decide

theorem test_decode_halt :
    decodeSource hw "000000 000000 000010".toList = .ok [(Instr.halt 0 0 0).toEntry] := by decide

theorem test_decode_out :
    decodeSource hw "000000 001010 000000".toList = .ok [(Instr.out 0 2 0).toEntry] := by decide

theorem test_decode_outHalt :
    decodeSource hw "000000 011110 000010".toList = .ok [(Instr.outHalt 0 7 0).toEntry] := by decide

theorem test_decode_inp :
    decodeSource hw "000110 000000 000000".toList = .ok [(Instr.inp 1 0 0).toEntry] := by decide

theorem test_decode_inpHalt :
    decodeSource hw "010110 000000 000010".toList = .ok [(Instr.inpHalt 5 0 0).toEntry] := by decide

theorem test_decode_inpOut :
    decodeSource hw "100010 100010 000000".toList = .ok [(Instr.inpOut 8 8 0).toEntry] := by decide

theorem test_decode_inpOutHalt :
    decodeSource hw "100010 000010 111110".toList = .ok [(Instr.inpOutHalt 8 0 15).toEntry] := by decide

/-- V-D-20: a segment with `s=1, l=1` continues and does not count. -/
theorem test_decode_linked_flag :
    decodeSource hw "000111 000010 000000 000000".toList = .ok [(Instr.inp 16 0 0).toEntry] := by decide

/-- V-D-12: the stream ends before `l`; no flag. -/
theorem test_decode_cut_before_l :
    decodeSource hw "00000000000000010".toList = .ok [(Instr.subleq 0 0 1).toEntry] := by decide

/-- V-D-16 and V-D-17. -/
theorem test_decode_dangling :
    decodeSource hw "000000000000000111".toList = .ok [(Instr.subleq 0 0 16).toEntry] ∧
    decodeSource { hw with danglingLink := .noShift } "000000000000000111".toList =
      .ok [(Instr.subleq 0 0 1).toEntry] := by decide

/-- V-D-3 and V-D-32. -/
theorem test_load_errors :
    decodeSource hw "x000000000000000000".toList = .error .unexpectedEndOfBitstream ∧
    decodeSource { hw with irfCap := 0 } "000000000000000000".toList = .error .programTooLong := by decide

/-- V-D-29: a trailing part is dropped. V-L1-4: a program may decode to nothing. -/
theorem test_decode_partial :
    decodeSource hw "000000000000000000000000000".toList = .ok [(Instr.subleq 0 0 0).toEntry] ∧
    decodeSource hw "100010000111111".toList = .ok [] := by decide

/-- V-E-8, with the function flag. -/
theorem test_encode_300 :
    bitsToSource (encodeAddress ⟨300, true⟩) = "000101001001110010".toList := by decide

/-! ### One step of each class -/

/-- V-C-3. -/
theorem test_subleq_negative_branches :
    view (exec (.subleq 1 2 7) (start 0 [(1, 11), (2, 10)] [])) =
      some ⟨7, [(1, 11), (2, -1)], [], 0, false, .none⟩ := by decide

/-- V-C-7: `CELL_MIN - 1` overflows. -/
theorem test_subleq_overflow :
    view (exec (.subleq 1 2 9) (start 0 [(1, 1), (2, -2147483648)] [])) =
      some ⟨0, [(1, 1), (2, -2147483648)], [], 0, false, .arithOverflow⟩ := by decide

/-- V-C-20: no operand is checked. -/
theorem test_halt_checks_nothing :
    view (exec (.halt 2147483652 2147483652 2147483652) (start 3 [] [])) =
      some ⟨3, [], [], 0, true, .none⟩ := by decide

/-- V-C-22. -/
theorem test_out_negative :
    view (exec (.out 0 2 0) (start 3 [(2, -5)] [])) = some ⟨4, [(2, -5)], [0xFB], 0, false, .none⟩ := by decide

/-- V-C-30. -/
theorem test_out_range :
    view (exec (.out 0 2147483648 0) (start 0 [] [])) = some ⟨0, [], [], 0, false, .addressRange⟩ := by decide

/-- V-C-31. -/
theorem test_outHalt :
    view (exec (.outHalt 0 7 0) (start 0 [(7, 72)] [])) = some ⟨0, [(7, 72)], [0x48], 0, true, .none⟩ := by decide

/-- V-C-33. -/
theorem test_inp_zero_extends :
    view (exec (.inp 1 0 0) (start 0 [] [.byte 0xFF])) = some ⟨1, [(1, 255)], [], 0, false, .none⟩ := by decide

/-- V-C-36: the end of input writes 0, which the canonical store does not list. -/
theorem test_inp_end_of_input :
    view (exec (.inp 1 0 0) (start 0 [(1, 77)] [.eoi])) = some ⟨1, [], [], 0, false, .none⟩ := by decide

/-- V-C-39. -/
theorem test_inpHalt :
    view (exec (.inpHalt 5 0 0) (start 2 [] [.byte 0x33])) = some ⟨2, [(5, 51)], [], 0, true, .none⟩ := by decide

/-- V-C-40: the output is the byte just read. -/
theorem test_inpOut_echo :
    view (exec (.inpOut 8 8 0) (start 0 [(8, 7)] [.byte 0x41])) =
      some ⟨1, [(8, 65)], [0x41], 0, false, .none⟩ := by decide

/-- V-C-42: the check of `b` comes before the input. -/
theorem test_inpOut_range :
    view (exec (.inpOut 1 2147483648 0) (start 0 [] [.byte 0x01])) =
      some ⟨0, [], [], 1, false, .addressRange⟩ := by decide

/-- V-C-43. -/
theorem test_inpOutHalt :
    view (exec (.inpOutHalt 8 0 15) (start 0 [] [.byte 0x41])) =
      some ⟨0, [(8, 65)], [0x00], 0, true, .none⟩ := by decide

/-- V-X-1: with one store entry, and it used. -/
theorem test_store_full :
    view (inpWith { hw with storeCap := 1 } 6 (start 0 [(5, 1)] [.byte 0x09])) =
      some ⟨0, [(5, 1)], [], 1, false, .storeFull⟩ := by decide

/-- V-R-6: the test of `pc` comes before the cap. -/
theorem test_pc_before_cap :
    (loopTest { hw with cap := 1 }
      { running [(Instr.subleq 0 0 5).toEntry] with pc := 5, instructionCount := 1 }).map (fun t => t.tr) =
      some .programCounterOutOfRange := by decide

/-- V-H-1: RUN before a LOAD is refused. -/
theorem test_run_unloaded :
    holdsAfter (step { State.reset with script := [.host .run] })
      (fun t => decide (t.replies = [.refused] ∧ t.seq = .idle ∧ t.ls = .unloaded)) = true := by decide

/-- The opcode table's words, each placed where the next step fetches, run: HALT halts. -/
theorem test_withFetchWord_halt :
    holdsAfter (step (State.reset.withFetchWord 8 1)) (fun t => t.halted) = true := by decide

/-! ### Witnesses: a concrete state and operands that meet a statement's hypotheses, clause by clause -/

/-- A program of one instruction, running, with an answer there. -/
def one (i : Instr) (input : List InAnswer) : State := { running [i.toEntry] with input := input }

theorem issued_one (i : Instr) (input : List InAnswer) : StepIssued (one i input) where
  ls := rfl
  seq := rfl
  tr := rfl
  halted := rfl
  pcLow := by show (0 : Int) ≤ 0; decide
  pcHigh := by show (0 : Int) < 1; decide
  count := by show 0 < 1000000; decide
  stopReq := rfl

/-- A write to `hw.addrMax` finds an entry in an empty store. -/
theorem room_reset (x : Nat) (input : List InAnswer) (i : Instr) : RoomFor x (one i input) :=
  Or.inr (by show 0 < hw.addrMax + 1; decide)

theorem witness_LoadIsTheReset :
    (∃ (s : State) (src : List Char) (rest : List Event) (es : List Entry),
      s.seq = .idle ∧ s.script = .host (.load src) :: rest ∧ decodeSource hw src = .ok es) ∧
    (∃ (s : State) (src : List Char) (rest : List Event) (e : LoadError),
      s.seq = .idle ∧ s.script = .host (.load src) :: rest ∧ decodeSource hw src = .error e) :=
  ⟨⟨{ State.reset with script := [.host (.load ['1'])] }, ['1'], [], [], by decide⟩,
    ⟨{ State.reset with script := [.host (.load [])] }, [], [], .unexpectedEndOfBitstream, by decide⟩⟩

theorem witness_StepRunsTheFetchedInstruction :
    (∃ (s : State) (e : Entry), StepIssued s ∧ s.irf[s.pc.toNat]? = some e ∧ s.script = []) ∧
    (∃ (s : State) (e : Entry) (rest : List Event), StepIssued s ∧ s.irf[s.pc.toNat]? = some e ∧
      s.script = .core :: rest) :=
  ⟨⟨one (.halt 0 0 0) [], _, issued_one _ _, rfl, rfl⟩,
    ⟨{ one (.halt 0 0 0) [] with script := [.core] }, _, [],
      ⟨rfl, rfl, rfl, rfl, (issued_one (.halt 0 0 0) []).pcLow, (issued_one (.halt 0 0 0) []).pcHigh,
        (issued_one (.halt 0 0 0) []).count, rfl⟩, rfl, rfl⟩⟩

theorem witness_FirstRunStartsAtIndexZero :
    (∃ (s : State) (src : List Char) (e : Entry) (es : List Entry), s.seq = .idle ∧
      s.script = [.host (.load src), .host .run] ∧ decodeSource hw src = .ok (e :: es)) ∧
    (∃ (s : State) (src : List Char), s.seq = .idle ∧ s.script = [.host (.load src), .host .run] ∧
      decodeSource hw src = .ok []) :=
  ⟨⟨{ State.reset with script := [.host (.load "000000000000000010".toList), .host .run] },
      "000000000000000010".toList, (Instr.halt 0 0 0).toEntry, [], by decide⟩,
    ⟨{ State.reset with script := [.host (.load ['1']), .host .run] }, ['1'], by decide⟩⟩

/-- Both outcomes of the branch, at the boundary: results 0 and 1, operands and target at `ADDR_MAX`. -/
theorem witness_SubleqSubtractsAndBranches :
    (∃ (a b c : Nat) (s : State), Memory.wf s.mem ∧ a ≤ hw.addrMax ∧ b ≤ hw.addrMax ∧ Fits (exactResult a b s) ∧
      exactResult a b s ≤ 0 ∧ c ≤ hw.addrMax ∧ RoomFor b s) ∧
    (∃ (a b c : Nat) (s : State), Memory.wf s.mem ∧ a ≤ hw.addrMax ∧ b ≤ hw.addrMax ∧ Fits (exactResult a b s) ∧
      0 < exactResult a b s ∧ hw.addrMax < c ∧ RoomFor b s) :=
  ⟨⟨hw.addrMax, hw.addrMax, hw.addrMax, start 0 [] [], by unfold RoomFor; decide⟩,
    ⟨0, hw.addrMax, hw.addrMax + 1, start 0 [(hw.addrMax, 1)] [], by unfold RoomFor; decide⟩⟩

theorem witness_HaltStopsInPlace : ∃ s : State, s.seq = .loop ∧ s.tr = .none ∧ s.script = [] :=
  ⟨one (.halt 0 0 0) [], by decide⟩

/-- OutWritesTheLowByte and OutHaltWritesThenHalts. -/
theorem witness_OutWritesTheLowByte : ∃ (b : Nat) (s : State), b ≤ hw.addrMax ∧ s.sinkReady = true :=
  ⟨hw.addrMax, State.reset, by decide⟩

/-- InStoresTheAnswer and InHaltStoresThenHalts. -/
theorem witness_InStoresTheAnswer :
    ∃ (a : Nat) (s : State) (x : InAnswer) (rest : List InAnswer), Memory.wf s.mem ∧ a ≤ hw.addrMax ∧ RoomFor a s ∧
      s.input = x :: rest :=
  ⟨hw.addrMax, one (.inp hw.addrMax 0 0) [.byte 0xFF], .byte 0xFF, [], by unfold RoomFor; decide⟩

/-- InOutStoresThenOutputs and InOutHaltRunsAllPhases, with `b = a` and with `b` another cell. -/
theorem witness_InOutStoresThenOutputs :
    (∃ (a b : Nat) (s : State) (x : InAnswer) (rest : List InAnswer), Memory.wf s.mem ∧ a ≤ hw.addrMax ∧ b ≤ hw.addrMax ∧
      RoomFor a s ∧ s.input = x :: rest ∧ s.sinkReady = true ∧ b = a) ∧
    (∃ (a b : Nat) (s : State) (x : InAnswer) (rest : List InAnswer), Memory.wf s.mem ∧ a ≤ hw.addrMax ∧ b ≤ hw.addrMax ∧
      RoomFor a s ∧ s.input = x :: rest ∧ s.sinkReady = true ∧ b ≠ a) :=
  ⟨⟨hw.addrMax, hw.addrMax, one (.inpOut hw.addrMax hw.addrMax 0) [.eoi], .eoi, [], by unfold RoomFor; decide⟩,
    ⟨0, hw.addrMax, one (.inpOut 0 hw.addrMax 0) [.byte 1], .byte 1, [], by unfold RoomFor; decide⟩⟩

/-- A step that halts, with both other phases performed and with neither. -/
theorem witness_HaltPhaseStopsInPlace :
    (∃ (e : Entry) (s t : State), e.c.hasFunction = true ∧ s.seq = .loop ∧ Memory.wf s.mem ∧
      exec e.toInstr s = .next t ∧ t.seq = .loop ∧ e.a.hasFunction = true ∧ e.b.hasFunction = true) ∧
    (∃ (e : Entry) (s t : State), e.c.hasFunction = true ∧ s.seq = .loop ∧ Memory.wf s.mem ∧
      exec e.toInstr s = .next t ∧ t.seq = .loop ∧ e.a.hasFunction = false ∧ e.b.hasFunction = false) :=
  ⟨⟨(Instr.inpOutHalt 8 0 15).toEntry, one (.inpOutHalt 8 0 15) [.eoi], _, rfl, rfl, by decide, rfl, rfl, rfl, rfl⟩,
    ⟨(Instr.halt 0 0 0).toEntry, one (.halt 0 0 0) [], _, rfl, rfl, by decide, rfl, rfl, rfl, rfl⟩⟩

theorem witness_FunctionClassesFallThrough :
    (∃ (e : Entry) (s t : State), e.a.hasFunction = true ∧ e.c.hasFunction = false ∧ Memory.wf s.mem ∧
      exec e.toInstr s = .next t ∧ t.seq = .loop) ∧
    (∃ (e : Entry) (s t : State), e.b.hasFunction = true ∧ e.a.hasFunction = false ∧ e.c.hasFunction = false ∧
      Memory.wf s.mem ∧ exec e.toInstr s = .next t ∧ t.seq = .loop) :=
  ⟨⟨(Instr.inp 1 0 0).toEntry, one (.inp 1 0 0) [.byte 5], _, rfl, rfl, by decide, rfl, rfl⟩,
    ⟨(Instr.out 0 1 0).toEntry, one (.out 0 1 0) [], _, rfl, rfl, rfl, by decide, rfl, rfl⟩⟩

theorem witness_InputClassesWaitForAnAnswer :
    ∃ (e : Entry) (s : State), e.a.hasFunction = true ∧ e.a.value ≤ hw.addrMax ∧
      (e.b.hasFunction = true → e.b.value ≤ hw.addrMax) ∧ RoomFor e.a.value s ∧ s.input = [] :=
  ⟨(Instr.inpOut hw.addrMax hw.addrMax 0).toEntry, one (.inpOut hw.addrMax hw.addrMax 0) [], by unfold RoomFor; decide⟩

theorem witness_OutputClassesWaitForTheSink :
    (∃ (e : Entry) (s : State), e.b.hasFunction = true ∧ e.b.value ≤ hw.addrMax ∧ s.sinkReady = false ∧
      e.a.hasFunction = false) ∧
    (∃ (e : Entry) (s : State) (x : InAnswer) (rest : List InAnswer), e.b.hasFunction = true ∧ e.b.value ≤ hw.addrMax ∧
      s.sinkReady = false ∧ e.a.hasFunction = true ∧ e.a.value ≤ hw.addrMax ∧ RoomFor e.a.value s ∧ Memory.wf s.mem ∧
      s.input = x :: rest) :=
  ⟨⟨(Instr.out 0 hw.addrMax 0).toEntry, { State.reset with sinkReady := false }, by decide⟩,
    ⟨(Instr.inpOut hw.addrMax hw.addrMax 0).toEntry, { State.reset with sinkReady := false, input := [.eoi] }, .eoi, [],
      by unfold RoomFor; decide⟩⟩

theorem witness_HeldInputStepEndsAsUnheld :
    ∃ (e : Entry) (s t : State), fetchEntry s = some e ∧ e.a.hasFunction = true ∧ s.script = [] ∧ s.input = [] ∧
      exec e.toInstr s = .next t ∧ t.seq = .waitIn :=
  ⟨(Instr.inp 1 0 0).toEntry, one (.inp 1 0 0) [], _, by decide, rfl, rfl, rfl, rfl, rfl⟩

theorem witness_HeldOutputStepEndsAsUnheld :
    ∃ (e : Entry) (s t : State), fetchEntry s = some e ∧ e.b.hasFunction = true ∧ s.script = [] ∧
      s.sinkReady = false ∧ exec e.toInstr s = .next t ∧ t.seq = .waitOut :=
  ⟨(Instr.out 0 1 0).toEntry, { one (.out 0 1 0) [] with sinkReady := false }, _, by decide, rfl, rfl, rfl, rfl, rfl⟩

theorem witness_UnansweredStepsWaitForEver :
    (∃ s : State, s.script = [] ∧ s.seq = .waitIn ∧ WaitsForInput hw s ∧ s.input = []) ∧
    (∃ s : State, s.script = [] ∧ s.seq = .waitOut ∧ WaitsForSink hw s ∧ s.sinkReady = false) :=
  ⟨⟨{ one (.inp 1 0 0) [] with seq := .waitIn, instructionCount := 1 }, rfl, rfl,
      ⟨rfl, rfl, by decide, (Instr.inp 1 0 0).toEntry, by decide⟩, rfl⟩,
    ⟨{ one (.out 0 1 0) [] with seq := .waitOut, instructionCount := 1, sinkReady := false }, rfl, rfl,
      ⟨rfl, rfl, by decide, (Instr.out 0 1 0).toEntry, by decide⟩, rfl⟩⟩

/-- Each kind of fault this hardware can raise. -/
theorem witness_FaultingStepIsPrecise :
    (∃ (i : Instr) (s t : State), s.tr = .none ∧ exec i s = .next t ∧ t.tr = .addressRange) ∧
    (∃ (i : Instr) (s t : State), s.tr = .none ∧ exec i s = .next t ∧ t.tr = .arithOverflow) :=
  ⟨⟨.out 0 (hw.addrMax + 1) 0, State.reset, _, rfl, rfl, by decide⟩,
    ⟨.subleq 1 2 9, start 0 [(1, 1), (2, -2147483648)] [], _, rfl, rfl, by decide⟩⟩

/-- `a` just outside, `b` just outside, and both at the last address inside. -/
theorem witness_UsedOperandsAreRangeChecked :
    (∃ e : Entry, usesA e = true ∧ hw.addrMax < e.a.value) ∧ (∃ e : Entry, usesB e = true ∧ hw.addrMax < e.b.value) ∧
    (∃ (e : Entry) (s : State), (usesA e = true → e.a.value ≤ hw.addrMax) ∧ (usesB e = true → e.b.value ≤ hw.addrMax) ∧
      e.selector ≠ 0 ∧ RoomFor e.a.value s) :=
  ⟨⟨(Instr.inp (hw.addrMax + 1) 0 0).toEntry, by decide⟩, ⟨(Instr.subleq 0 (hw.addrMax + 1) 0).toEntry, by decide⟩,
    ⟨(Instr.inpOut hw.addrMax hw.addrMax 0).toEntry, State.reset, by unfold RoomFor; decide⟩⟩

/-- The extreme operands; one below `CELL_MIN` under both modes; and under `WRAP` at nine bits, where the wrapped result
255 is not a branch and -256 is, the target just outside. -/
theorem witness_OverflowFaultsOrWraps :
    (∃ (p : Params) (a b : Nat) (s : State), IsCell p (memRead s a) ∧ IsCell p (memRead s b) ∧
      exactResult a b s = p.cellMin - p.cellMax) ∧
    (∃ (p : Params) (a b : Nat) (s : State), a ≤ p.addrMax ∧ b ≤ p.addrMax ∧ ¬ IsCell p (exactResult a b s) ∧
      p.overflowMode = .fault) ∧
    (∃ (a b : Nat) (s : State), a ≤ hw.addrMax ∧ b ≤ hw.addrMax ∧ ¬ Fits (exactResult a b s)) ∧
    (∃ (p : Params) (a b c : Nat) (s : State) (w : Int), a ≤ p.addrMax ∧ b ≤ p.addrMax ∧
      ¬ IsCell p (exactResult a b s) ∧ p.overflowMode = .wrap ∧
      w = (exactResult a b s - p.cellMin) % 2 ^ p.cellW + p.cellMin ∧ w ≤ 0 ∧ p.addrMax < c) ∧
    (∃ (p : Params) (a b c : Nat) (s : State) (w : Int), a ≤ p.addrMax ∧ b ≤ p.addrMax ∧
      ¬ IsCell p (exactResult a b s) ∧ p.overflowMode = .wrap ∧
      w = (exactResult a b s - p.cellMin) % 2 ^ p.cellW + p.cellMin ∧ 1 ≤ p.cellW ∧ 0 < w ∧ p.addrMax < c ∧
      Memory.wf s.mem ∧ hasRoom p b s = true) :=
  ⟨⟨hw, 1, 2, start 0 [(1, 2147483647), (2, -2147483648)] [], by decide⟩,
    ⟨hw, 1, 2, start 0 [(1, 1), (2, -2147483648)] [], by decide⟩,
    ⟨1, 2, start 0 [(1, 1), (2, -2147483648)] [], by decide⟩,
    ⟨{ hw with cellW := 9, overflowMode := .wrap }, 1, 2, 256, start 0 [(1, -1), (2, 255)] [], -256, by decide⟩,
    ⟨{ hw with cellW := 9, overflowMode := .wrap }, 1, 2, 256, start 0 [(1, 1), (2, -256)] [], 255, by decide⟩⟩

/-- The target just outside, with results 0 and 1. -/
theorem witness_TargetIsCheckedOnlyWhenTaken :
    (∃ (p : Params) (a b c : Nat) (s : State), a ≤ p.addrMax ∧ b ≤ p.addrMax ∧ IsCell p (exactResult a b s) ∧
      p.addrMax < c ∧ exactResult a b s ≤ 0) ∧
    (∃ (a b c : Nat) (s : State), a ≤ hw.addrMax ∧ b ≤ hw.addrMax ∧ Fits (exactResult a b s) ∧ hw.addrMax < c ∧
      exactResult a b s ≤ 0) ∧
    (∃ (a b c : Nat) (s : State), a ≤ hw.addrMax ∧ b ≤ hw.addrMax ∧ Fits (exactResult a b s) ∧ hw.addrMax < c ∧
      0 < exactResult a b s ∧ RoomFor b s) :=
  ⟨⟨{ hw with cellW := 9 }, 1, 2, 256, start 0 [] [], by decide⟩,
    ⟨1, 2, hw.addrMax + 1, start 0 [] [], by decide⟩,
    ⟨1, 2, hw.addrMax + 1, start 0 [(2, 1)] [], by unfold RoomFor; decide⟩⟩

theorem witness_FullStoreFaultsBeforeAnyEffect :
    (∃ (p : Params) (a b : Nat) (s : State), a ≤ p.addrMax ∧ b ≤ p.addrMax ∧ a ∉ s.footprint ∧
      p.storeCap ≤ s.footprint.length) ∧
    (∃ (p : Params) (a b c : Nat) (s : State), a ≤ p.addrMax ∧ b ≤ p.addrMax ∧ b ∉ s.footprint ∧
      p.storeCap ≤ s.footprint.length ∧ IsCell p (exactResult a b s) ∧ (exactResult a b s ≤ 0 → c ≤ p.addrMax)) :=
  ⟨⟨{ hw with storeCap := 1 }, 6, 5, start 0 [(5, 1)] [], by decide⟩,
    ⟨{ hw with storeCap := 1 }, 5, 6, hw.addrMax, start 0 [(5, 1)] [], by decide⟩⟩

theorem witness_StoreFullCannotOccur :
    ∃ (i : Instr) (s t : State), Footprint.wf hw s.footprint ∧ s.tr ≠ .storeFull ∧ exec i s = .next t :=
  ⟨.inp hw.addrMax 0 0, one (.inp hw.addrMax 0 0) [.eoi], _, by decide, by decide, rfl⟩

/-- The five clauses; `pc` at the program's length, the count at the cap and one below. -/
theorem witness_RunLoopTestsInOrder :
    (∃ s : State, s.script = [] ∧ s.seq = .loop ∧ s.tr ≠ .none) ∧
    (∃ s : State, s.script = [] ∧ s.seq = .loop ∧ s.tr = .none ∧ s.halted = true) ∧
    (∃ s : State, s.script = [] ∧ s.seq = .loop ∧ s.tr = .none ∧ s.halted = false ∧
      ¬ (0 ≤ s.pc ∧ s.pc < s.irf.length)) ∧
    (∃ s : State, s.script = [] ∧ s.seq = .loop ∧ s.tr = .none ∧ s.halted = false ∧ 0 ≤ s.pc ∧
      s.pc < s.irf.length ∧ 1000000 ≤ s.instructionCount) ∧
    (∃ s : State, s.script = [] ∧ s.seq = .loop ∧ s.tr = .none ∧ s.halted = false ∧ 0 ≤ s.pc ∧
      s.pc < s.irf.length ∧ s.instructionCount < 1000000 ∧ s.stopReq = true) :=
  ⟨⟨{ one (.halt 0 0 0) [] with tr := .addressRange }, by decide⟩,
    ⟨{ one (.halt 0 0 0) [] with halted := true }, by decide⟩,
    ⟨{ one (.halt 0 0 0) [] with pc := 1 }, by decide⟩,
    ⟨{ one (.halt 0 0 0) [] with instructionCount := 1000000 }, by decide⟩,
    ⟨{ one (.halt 0 0 0) [] with instructionCount := 999999, stopReq := true }, by decide⟩⟩

theorem witness_RunAgainResumesOrStops :
    (∃ s : State, s.ls = .loaded ∧ s.stopReq = false ∧ s.seq = .idle ∧ s.script = [.host .run] ∧ s.tr ≠ .none) ∧
    (∃ s : State, s.ls = .loaded ∧ s.stopReq = false ∧ s.seq = .loop ∧ s.script = [.host .stop, .core, .host .run] ∧
      s.tr = .none ∧ s.halted = false ∧ 0 ≤ s.pc ∧ s.pc < s.irf.length ∧ s.instructionCount < 1000000) ∧
    (∃ (s : State) (rest : List Event), s.seq ≠ .idle ∧ s.script = .host .run :: rest) ∧
    (∃ (s : State) (rest : List Event), s.ls ≠ .loaded ∧ s.script = .host .run :: rest) :=
  ⟨⟨{ one (.halt 0 0 0) [] with seq := .idle, tr := .haltInstruction, script := [.host .run] }, by decide⟩,
    ⟨{ one (.halt 0 0 0) [] with script := [.host .stop, .core, .host .run] }, by decide⟩,
    ⟨{ one (.halt 0 0 0) [] with seq := .waitIn, script := [.host .run] }, [], by decide⟩,
    ⟨{ State.reset with script := [.host .run] }, [], by decide⟩⟩

/-- READ_MEM at and just above `ADDR_MAX`; the other commands accepted and refused. -/
theorem witness_HostCommandsFollowTheirTable :
    (∃ s : State, commandAccepted s (.readMem hw.addrMax)) ∧ (∃ s : State, ¬ commandAccepted s (.readMem (hw.addrMax + 1))) ∧
    (∃ s : State, commandAccepted s .run) ∧ (∃ s : State, ¬ commandAccepted s .run) ∧
    (∃ s : State, commandAccepted s .stop) ∧ (∃ s : State, ¬ commandAccepted s .stop) ∧
    (∃ s : State, commandAccepted s (.load [])) ∧ (∃ s : State, ¬ commandAccepted s (.load [])) ∧
    (∃ s : State, commandAccepted s .readStatus ∧ s.seq = .idle) ∧
    (∃ s : State, commandAccepted s .readStatus ∧ s.seq = .loop) :=
  ⟨⟨State.reset, by unfold commandAccepted; decide⟩, ⟨State.reset, by unfold commandAccepted; decide⟩,
    ⟨{ running [] with seq := .idle }, by unfold commandAccepted; decide⟩,
    ⟨State.reset, by unfold commandAccepted; decide⟩, ⟨running [], by unfold commandAccepted; decide⟩,
    ⟨State.reset, by unfold commandAccepted; decide⟩, ⟨State.reset, by unfold commandAccepted; decide⟩,
    ⟨running [], by unfold commandAccepted; decide⟩, ⟨State.reset, trivial, rfl⟩, ⟨running [], trivial, rfl⟩⟩

theorem witness_StatusInsideAStepIsTheBoundarys :
    (∃ (e : Entry) (s t : State), s.seq = .loop ∧ exec e.toInstr s = .next t ∧ t.seq = .waitIn) ∧
    (∃ (e : Entry) (s t : State), s.seq = .loop ∧ exec e.toInstr s = .next t ∧ t.seq = .waitOut) :=
  ⟨⟨(Instr.inp 1 0 0).toEntry, one (.inp 1 0 0) [], _, rfl, rfl, rfl⟩,
    ⟨(Instr.out 0 1 0).toEntry, { one (.out 0 1 0) [] with sinkReady := false }, _, rfl, rfl, rfl⟩⟩

/-- A step of a program of two instructions, and one of an instruction that halts, with a STOP while it waits. -/
def stopped (i : Instr) (sink : Bool) (answer : Event) : State :=
  { running [i.toEntry, (Instr.halt 0 0 0).toEntry] with sinkReady := sink, script := [.core, .host .stop, answer] }

theorem issued_stopped (i : Instr) (sink : Bool) (answer : Event) : StepIssued (stopped i sink answer) where
  ls := rfl
  seq := rfl
  tr := rfl
  halted := rfl
  pcLow := by show (0 : Int) ≤ 0; decide
  pcHigh := by show (0 : Int) < 2; decide
  count := by show 0 < 1000000; decide
  stopReq := rfl

/-- Each wait, with a step that goes on after the STOP and with one that halts. -/
theorem witness_StopTakesEffectAtTheBoundary :
    (∃ (e : Entry) (s t u : State) (x : InAnswer), StepIssued s ∧ fetchEntry s = some e ∧ step s = .next t ∧
      s.script = [.core, .host .stop, .inputAnswer x] ∧ e.a.hasFunction = true ∧ s.input = [] ∧ s.sinkReady = true ∧
      t.seq = .waitIn ∧ exec e.toInstr { s with script := [], input := [x] } = .next u ∧
      u.halted = false ∧ 0 ≤ u.pc ∧ u.pc < u.irf.length ∧ u.instructionCount < 1000000) ∧
    (∃ (e : Entry) (s t u : State) (x : InAnswer), StepIssued s ∧ fetchEntry s = some e ∧ step s = .next t ∧
      s.script = [.core, .host .stop, .inputAnswer x] ∧ e.a.hasFunction = true ∧ s.input = [] ∧ s.sinkReady = true ∧
      t.seq = .waitIn ∧ exec e.toInstr { s with script := [], input := [x] } = .next u ∧ u.halted = true) ∧
    (∃ (e : Entry) (s t u : State), StepIssued s ∧ fetchEntry s = some e ∧ step s = .next t ∧
      s.script = [.core, .host .stop, .sinkReady true] ∧ e.b.hasFunction = true ∧ s.sinkReady = false ∧
      t.seq = .waitOut ∧ exec e.toInstr { s with script := [], sinkReady := true } = .next u ∧
      u.halted = false ∧ 0 ≤ u.pc ∧ u.pc < u.irf.length ∧ u.instructionCount < 1000000) ∧
    (∃ (e : Entry) (s t u : State), StepIssued s ∧ fetchEntry s = some e ∧ step s = .next t ∧
      s.script = [.core, .host .stop, .sinkReady true] ∧ e.b.hasFunction = true ∧ s.sinkReady = false ∧
      t.seq = .waitOut ∧ exec e.toInstr { s with script := [], sinkReady := true } = .next u ∧ u.halted = true) :=
  ⟨⟨(Instr.inp 1 0 0).toEntry, stopped (.inp 1 0 0) true (.inputAnswer .eoi), _, _, .eoi, issued_stopped _ _ _,
      by decide, rfl, rfl, rfl, rfl, rfl, rfl, rfl, rfl, by decide, by decide, by decide⟩,
    ⟨(Instr.inpHalt 1 0 0).toEntry, stopped (.inpHalt 1 0 0) true (.inputAnswer .eoi), _, _, .eoi,
      issued_stopped _ _ _, by decide, rfl, rfl, rfl, rfl, rfl, rfl, rfl, rfl⟩,
    ⟨(Instr.out 0 1 0).toEntry, stopped (.out 0 1 0) false (.sinkReady true), _, _, issued_stopped _ _ _, by decide,
      rfl, rfl, rfl, rfl, rfl, rfl, rfl, by decide, by decide, by decide⟩,
    ⟨(Instr.outHalt 0 1 0).toEntry, stopped (.outHalt 0 1 0) false (.sinkReady true), _, _, issued_stopped _ _ _,
      by decide, rfl, rfl, rfl, rfl, rfl, rfl, rfl⟩⟩

/-- Each wait, answered and not. -/
theorem witness_StopNeverDisturbsAWaitingStep :
    (∃ s t : State, s.seq = .waitIn ∧ s.script = [] ∧ s.input = [] ∧ step s = .next t) ∧
    (∃ s t : State, s.seq = .waitIn ∧ s.script = [] ∧ s.input ≠ [] ∧ step s = .next t) ∧
    (∃ s t : State, s.seq = .waitOut ∧ s.script = [] ∧ s.sinkReady = false ∧ step s = .next t) ∧
    (∃ s t : State, s.seq = .waitOut ∧ s.script = [] ∧ s.sinkReady = true ∧ step s = .next t) :=
  ⟨⟨{ one (.inp 1 0 0) [] with seq := .waitIn }, _, rfl, rfl, rfl, rfl⟩,
    ⟨{ one (.inp 1 0 0) [.eoi] with seq := .waitIn }, _, rfl, rfl, by decide, rfl⟩,
    ⟨{ one (.out 0 1 0) [] with seq := .waitOut, sinkReady := false }, _, rfl, rfl, rfl, rfl⟩,
    ⟨{ one (.out 0 1 0) [] with seq := .waitOut }, _, rfl, rfl, rfl, rfl⟩⟩

theorem witness_TerminationReasonIsSticky :
    ∃ s t : State, nextIsLoad s = false ∧ s.tr ≠ .none ∧ step s = .next t :=
  ⟨{ one (.halt 0 0 0) [] with tr := .addressRange }, _, rfl, by decide, rfl⟩

theorem witness_HaltedIsSetByTheHaltPhaseOnly :
    (∃ s t : State, nextIsLoad s = false ∧ step s = .next t ∧ s.halted = true) ∧
    (∃ s t : State, nextIsLoad s = false ∧ step s = .next t ∧ s.halted = false ∧ t.halted = true) :=
  ⟨⟨{ one (.halt 0 0 0) [] with halted := true }, _, rfl, rfl, rfl⟩, ⟨one (.halt 0 0 0) [], _, rfl, rfl, rfl, rfl⟩⟩

/-- A running state that meets the invariant. -/
theorem inv_one (i : Instr) : Inv hw (one i []) where
  memWf := by show Memory.wf []; decide
  memInSpace := by intro x hx; cases hx
  footprintWf := by show Footprint.wf hw []; decide
  writtenCells := by intro x hx; cases hx
  irfFits := by show 1 ≤ hw.addrMax; decide
  pcBounds := by show (0 : Int) ≤ 0 ∧ (0 : Int) ≤ (hw.addrMax : Int); decide
  countCap := by show 0 ≤ 1000000; decide
  notLoaded := by intro h; exact absurd rfl h
  unloaded := by intro h; cases h
  loadFailed := by show LoadState.loaded = .loadFailed ↔ TermReason.none = _ ∨ TermReason.none = _; decide
  haltedReason := by intro h; cases h
  reasonHalted := by intro h; cases h
  reasonPc := by intro h; cases h
  reasonCap := by intro h; cases h
  noStoreFull := by intro _; show TermReason.none ≠ .storeFull; decide
  stopWhileRunning := by intro h; cases h
  waitIn := by intro h; cases h
  waitOut := by intro h; cases h

theorem witness_HaltedRunExecutesNothing :
    ∃ s t : State, Inv hw s ∧ s.halted = true ∧ nextIsLoad s = false ∧ step s = .next t := by
  have h := inv_one (.halt 0 0 0)
  exact ⟨{ one (.halt 0 0 0) [] with halted := true }, _,
    { h with
      haltedReason := fun _ => Or.inl rfl
      reasonHalted := fun _ => rfl
      notLoaded := fun hl => absurd rfl hl
      waitIn := fun hs => by cases hs
      waitOut := fun hs => by cases hs }, rfl, rfl, rfl⟩

/-- StepKeepsTheInvariant and StepNeverStopsTheModel; and the former for a narrow machine. -/
theorem witness_StepKeepsTheInvariant :
    (∃ s t : State, Inv hw s ∧ step s = .next t) ∧
    (∃ (p : Params) (s t : State), p.wellFormed = true ∧ Inv p s ∧ stepWith p s = .next t ∧ p.cellW = 9) :=
  ⟨⟨one (.halt 0 0 0) [], _, inv_one _, rfl⟩,
    ⟨{ hw with cellW := 9, irfCap := 255 }, one (.halt 0 0 0) [], _, by decide,
      { inv_one (.halt 0 0 0) with
        memInSpace := by intro x hx; cases hx
        footprintWf := by show Footprint.wf _ []; decide
        irfFits := by show 1 ≤ 255; decide
        pcBounds := by show (0 : Int) ≤ 0 ∧ (0 : Int) ≤ ((255 : Nat) : Int); decide
        noStoreFull := by intro _; show TermReason.none ≠ .storeFull; decide
        waitIn := by intro h; cases h
        waitOut := by intro h; cases h }, rfl, rfl⟩⟩

/-- CountRisesByOneAtAFetch, OnlyLoadWritesTheProgram and ChannelsMoveOneByteAtATime: a turn that fetches, and one that
does not. -/
theorem witness_CountRisesByOneAtAFetch :
    (∃ s t : State, Inv hw s ∧ nextIsLoad s = false ∧ step s = .next t ∧
      t.instructionCount = s.instructionCount + 1) ∧
    (∃ s t : State, Inv hw s ∧ nextIsLoad s = false ∧ step s = .next t ∧ t.instructionCount = s.instructionCount ∧
      s.seq ≠ .waitIn ∧ s.seq ≠ .waitOut) :=
  ⟨⟨one (.out 0 1 0) [], _, inv_one _, rfl, rfl, rfl⟩,
    ⟨{ one (.out 0 1 0) [] with stopReq := true }, _,
      { inv_one (.out 0 1 0) with
        stopWhileRunning := by intro _ h; cases h
        waitIn := by intro h; cases h
        waitOut := by intro h; cases h }, rfl, rfl, rfl, by decide, by decide⟩⟩

theorem witness_FootprintIsUnobservable :
    ∃ (s t : State) (f : Footprint), Footprint.wf hw s.footprint ∧ Footprint.wf hw f ∧ f ≠ s.footprint ∧ step s = .next t :=
  ⟨one (.inp 1 0 0) [.eoi], _, [1, hw.addrMax], by decide, by decide, by decide, rfl⟩

/-- The whole cap to go, and none of it. -/
theorem witness_RunEndsWithinTheCap :
    (∃ s : State, s.seq = .loop ∧ s.stopReq = false ∧ s.script = [] ∧ s.sinkReady = true ∧
      hw.cap - s.instructionCount ≤ s.input.length ∧ s.instructionCount < hw.cap) ∧
    (∃ s : State, s.seq = .loop ∧ s.stopReq = false ∧ s.script = [] ∧ s.sinkReady = true ∧
      hw.cap - s.instructionCount ≤ s.input.length ∧ hw.cap ≤ s.instructionCount) :=
  ⟨⟨{ one (.inp 1 0 0) [.eoi] with instructionCount := 999999 }, by decide⟩,
    ⟨{ one (.inp 1 0 0) [] with instructionCount := 1000000 }, by decide⟩⟩

theorem witness_ZeroInputKeepsMemoryZero :
    ∃ (s t : State) (e : Entry), s.mem = [] ∧ OnlyZeroInput s ∧ step s = .next t ∧ StepIssued s ∧ s.script = [] ∧
      fetchEntry s = some e ∧ e.selector = 0 ∧ t.tr = .none :=
  ⟨one (.subleq 1 2 0) [.byte 0, .eoi], _, (Instr.subleq 1 2 0).toEntry, rfl,
    ⟨by intro x hx; simp [one, running] at hx; tauto, by intro x hx; cases hx⟩, rfl, issued_one _ _, rfl, by decide, rfl,
    by decide⟩

theorem witness_CanonicalStoresAreExtensional :
    ∃ m n : Memory, Memory.wf m ∧ Memory.wf n ∧ ∀ x, m.read x = n.read x :=
  ⟨[(0, -1), (hw.addrMax, 7)], [(0, -1), (hw.addrMax, 7)], by decide, by decide, fun _ => rfl⟩

theorem witness_ConversionsAreExtensionAndTruncation :
    (∃ p : Params, p.inExt = .zero) ∧ (∃ p : Params, p.inExt = .sign) :=
  ⟨⟨hw, rfl⟩, ⟨{ hw with inExt := .sign }, rfl⟩⟩

/-- With a program exactly as long as the IRF. -/
theorem witness_DecodeInvertsEncode :
    ∃ (p : Params) (es : List Entry), programWellFormed p es = true ∧ es.length = p.irfCap :=
  ⟨{ hw with irfCap := 1 }, [(Instr.inpOut 300 0 16).toEntry], by decide⟩

/-- Nothing; a cut in the second segment of `b`; and all of both addresses. -/
theorem witness_TrailingPartIsDropped :
    ∃ (p : Params) (es : List Entry) (linkedA linkedB : List (Nat × Bool)) (lastA lastB : Nat) (fa fb : Bool),
      programWellFormed p es = true ∧
      [] <+: addressForm linkedA lastA fa ++ addressForm linkedB lastB fb ∧
      (addressForm linkedA lastA fa ++ segmentBits 3 true true ++ [true]) <+:
        addressForm linkedA lastA fa ++ addressForm linkedB lastB fb ∧ linkedA ≠ [] :=
  ⟨hw, [(Instr.halt 0 0 0).toEntry], [(15, true)], [(3, true)], 1, 9, true, false, by decide, by decide, by decide,
    by decide⟩

theorem witness_LoadedEncodingIsTheInstruction :
    ∃ (i : Instr) (source : List Char),
      source.filter (fun ch => !hw.wsSet.contains ch) = bitsToSource (encode i) ∧
      source ≠ bitsToSource (encode i) :=
  ⟨.inp 1 0 0, " 000110\n000000 000000".toList, by decide⟩

theorem witness_SourceIsStrippedAndCut :
    ∃ (p : Params) (lead trail : List Char) (w other : Char) (b1 b2 : List Bool), '0' ∉ p.wsSet ∧ '1' ∉ p.wsSet ∧
      (∀ ch ∈ lead, ch ∈ p.wsSet) ∧ (∀ ch ∈ trail, ch ∈ p.wsSet) ∧ w ∈ p.wsSet ∧ other ∉ p.wsSet ∧ other ≠ '0' ∧
      other ≠ '1' ∧ b2 ≠ [] ∧ p.wsMode = .ends ∧ b1 ≠ [] :=
  ⟨{ hw with wsMode := .ends }, [' '], ['\n'], ' ', 'x', [true], [false], by simp [hw],
    by simp [hw], by simp [hw], by simp [hw], by simp [hw], by simp [hw], by decide,
    by decide, by decide, by decide, by decide⟩

/-- The same under this hardware's `ALL`. -/
theorem witness_SourceIsStrippedAndCut_all :
    ∃ (p : Params) (w : Char), '0' ∉ p.wsSet ∧ '1' ∉ p.wsSet ∧ w ∈ p.wsSet ∧ 'x' ∉ p.wsSet ∧ p.wsMode = .all :=
  ⟨hw, ' ', by simp [hw]⟩

theorem witness_AddressIsItsNibblesInBase16 :
    ∃ (linked : List (Nat × Bool)) (lastNib : Nat), (∀ x ∈ linked, x.1 < 16) ∧ lastNib < 16 ∧ linked ≠ [] :=
  ⟨[(0, true), (15, false)], 15, by decide⟩

/-- Cut inside a segment, and right after a linked one, under both settings. -/
theorem witness_CutShortAddressIsPadded :
    (∃ (linked : List (Nat × Bool)) (tail : List Bool), (∀ x ∈ linked, x.1 < 16) ∧ tail.length < 6 ∧
      (tail = [] → linked ≠ []) ∧ tail ≠ []) ∧
    (∃ (p : Params) (linked : List (Nat × Bool)) (tail : List Bool), (∀ x ∈ linked, x.1 < 16) ∧ tail.length < 6 ∧
      (tail = [] → linked ≠ []) ∧ tail = [] ∧ p.danglingLink = .noShift) :=
  ⟨⟨[], [true, false, true, true, true], by decide⟩,
    ⟨{ hw with danglingLink := .noShift }, [(15, true)], [], by decide⟩⟩

theorem witness_OnlyAnEmptyStreamIsUnexpectedEnd :
    ∃ (s : State) (source : List Char), bitSequence hw source = [] ∧ source ≠ [] ∧ s.seq = .idle :=
  ⟨State.reset, " 2".toList, by decide⟩

theorem witness_TooLongNeedsEighteenBitsEach :
    (∃ (p : Params) (bits : List Bool), decodeProgram p bits = .error .programTooLong) ∧
    (∃ (p : Params) (bits : List Bool) (es : List Entry), decodeProgram p bits = .ok es ∧ es.length = p.irfCap) :=
  ⟨⟨{ hw with irfCap := 0 }, encode (.halt 0 0 0), by decide⟩,
    ⟨{ hw with irfCap := 1 }, encode (.halt 0 0 0), [(Instr.halt 0 0 0).toEntry], by decide⟩⟩

/-- The least number of digits, at a power of 16. -/
theorem witness_CanonicalAddressIsShortest : ∃ (v j : Nat), 1 ≤ j ∧ v < 16 ^ j ∧ ¬ v < 16 ^ (j - 1) :=
  ⟨16, 2, by decide⟩

end Sys2Proof.Tests
end

section
/-! PROOFS. The family of 00_scope.md: the parameter table (R5), `exec` and `step` as the model at this hardware's
parameters, and that no step from a state that meets the invariant stops the model (R10). -/

namespace Sys2Proof.Machine

open Sys2Proof.Config

/-! ### The model never stops -/

/-- The invariant does not speak of what is scheduled outside the core. -/
theorem Inv.withScript {p : Params} {s : State} (h : Inv p s) (r : List Event) : Inv p { s with script := r } :=
  { h with }

section Turns

variable {p : Params} {run : Instr → State → Host.Outcome State Fault Refusal}

/-- One round of the run loop answers a next state if every instruction's step does. -/
theorem loopTurn_next (hrun : ∀ i u, ∃ t, run i u = .next t) (s : State) : ∃ t, loopTurn p run s = .next t := by
  rcases loopTurn_cases (p := p) (run := run) s with ⟨t, -, ht⟩ | ⟨-, -, -, -, -, e, -, hl⟩
  · exact ⟨t, ht⟩
  · obtain ⟨t, ht⟩ := hrun e.toInstr s
    exact ⟨t, hl.trans ht⟩

/-- A step that waits for input, as the invariant has it, has an input phase to go on with. -/
theorem coreTurn_waitIn_next {s : State} (hseq : s.seq = .waitIn) (hw : WaitsForInput p s) :
    ∃ t, coreTurn p run s = .next t := by
  obtain ⟨-, -, -, e, he, ha, -⟩ := hw
  rcases resumeInput_cases (p := p) e s with ⟨hn, -⟩ | ⟨-, f, t, hf, ht, -⟩
  · exact absurd ha (by simp [hn])
  · exact ⟨t, (coreTurn_waitIn hseq he hf).trans ht⟩

/-- A step that waits for the sink, as the invariant has it, has an output phase to go on with. -/
theorem coreTurn_waitOut_next {s : State} (hseq : s.seq = .waitOut) (hw : WaitsForSink p s) :
    ∃ t, coreTurn p run s = .next t := by
  obtain ⟨-, -, -, e, he, hb, -⟩ := hw
  rcases resumeOutput_cases e s with ⟨hn, -⟩ | ⟨-, f, t, hf, ht, -⟩
  · exact absurd hb (by simp [hn])
  · exact ⟨t, (coreTurn_waitOut hseq he hf).trans ht⟩

/-- A turn of the core answers a next state from every state that meets the invariant. -/
theorem coreTurn_next (hrun : ∀ i u, ∃ t, run i u = .next t) {s : State} (h : Inv p s) :
    ∃ t, coreTurn p run s = .next t := by
  cases hseq : s.seq with
  | idle => exact ⟨s, by simp only [coreTurn, hseq]⟩
  | loop =>
    obtain ⟨t, ht⟩ := loopTurn_next (p := p) hrun s
    exact ⟨t, by simp only [coreTurn, hseq, ht]⟩
  | waitIn => exact coreTurn_waitIn_next hseq (h.waitIn hseq)
  | waitOut => exact coreTurn_waitOut_next hseq (h.waitOut hseq)

/-- So does a turn of the whole machine: an outside event always lands, and the core has its turn otherwise. -/
theorem machineTurn_next (hrun : ∀ i u, ∃ t, run i u = .next t) {s : State} (h : Inv p s) :
    ∃ t, machineTurn p run s = .next t := by
  unfold machineTurn
  cases s.script with
  | nil => exact coreTurn_next hrun h
  | cons e rest =>
    cases e with
    | core => exact coreTurn_next hrun (h.withScript rest)
    | host cmd => exact ⟨_, rfl⟩
    | inputAnswer x => exact ⟨_, rfl⟩
    | sinkReady b => exact ⟨_, rfl⟩

end Turns

/-- Settles O44: the only stops of a turn are a wait without a step in progress, which the invariant rules out, and an
instruction's own stop, which no instruction has. -/
theorem stepNeverStopsTheModel : Obligations.StepNeverStopsTheModel :=
  fun _ h => machineTurn_next exec_next h

/-! ### The parameters -/

/-- `CELL_MIN` as R5 writes it, at every width. -/
theorem cellMin_eq (p : Params) : p.cellMin = -2 ^ (p.cellW - 1) := by
  simp [Params.cellMin, leastOfWidth]

/-- `CELL_MAX` as R5 writes it, at every width. -/
theorem cellMax_eq (p : Params) : p.cellMax = 2 ^ (p.cellW - 1) - 1 := by
  have hpos : 1 ≤ 2 ^ (p.cellW - 1) := Nat.one_le_two_pow
  simp [Params.cellMax, greatestOfWidth, Nat.cast_sub hpos]

/-- This hardware's cells are the 32-bit two's-complement integers. -/
theorem isCell_hw_iff (v : Int) : IsCell hw v ↔ -2 ^ 31 ≤ v ∧ v < 2 ^ 31 := by
  have hmin : hw.cellMin = -2 ^ 31 := cellMin_eq hw
  have hmax : hw.cellMax = 2 ^ 31 - 1 := cellMax_eq hw
  rw [IsCell, hmin, hmax]
  omega

/-- A character is the one of a code point exactly if it has that code point. -/
theorem char_eq_ofNat_iff {n : Nat} (hn : n.isValidChar) (ch : Char) : ch = Char.ofNat n ↔ ch.toNat = n := by
  rw [← Char.toNat_inj, Char.toNat_ofNat, if_pos hn]

/-- `WS_SET` is the space and the five control characters from U+0009 to U+000D. -/
theorem mem_wsSet_hw_iff (ch : Char) : ch ∈ hw.wsSet ↔ ch.toNat = 0x20 ∨ (0x09 ≤ ch.toNat ∧ ch.toNat ≤ 0x0D) := by
  simp only [hw, List.mem_cons, List.not_mem_nil, or_false]
  rw [char_eq_ofNat_iff (by decide), char_eq_ofNat_iff (by decide), char_eq_ofNat_iff (by decide),
    char_eq_ofNat_iff (by decide), char_eq_ofNat_iff (by decide), char_eq_ofNat_iff (by decide)]
  omega

/-- Settles O1: the bounds at every width, then this hardware's column of the table. -/
theorem parametersAreThisHardwares : Obligations.ParametersAreThisHardwares :=
  ⟨fun p => ⟨cellMin_eq p, cellMax_eq p, rfl⟩, rfl, rfl, rfl, rfl, isCell_hw_iff, rfl, rfl, rfl, rfl, mem_wsSet_hw_iff,
    rfl, rfl, rfl⟩

/-! ### This hardware's machine -/

/-- Class by class, `exec` calls the instruction's step under given parameters with this hardware's. -/
theorem exec_eq_execWith_hw (i : Instr) (s : State) : exec i s = execWith hw i s := by
  cases i <;> rfl

/-- The machine's turn over `exec` is its turn over `execWith hw`. -/
theorem step_eq_stepWith_hw (s : State) : step s = stepWith hw s := by
  have hexec : exec = execWith hw := funext fun i => funext fun u => exec_eq_execWith_hw i u
  rw [step, stepWith, hexec]

/-- Settles O2: `step` and `stepWith hw` are the same turn over the same instruction steps. -/
theorem hardwareIsTheModelAtItsParameters : Obligations.HardwareIsTheModelAtItsParameters :=
  ⟨exec_eq_execWith_hw, step_eq_stepWith_hw⟩

end Sys2Proof.Machine
end

section
/-! PROOFS. The family of 10_state.md: that every step keeps the invariant, what a turn does to `TR`, `halted` and the
count (R19 to R21), that the footprint is read by nothing but the capacity check (R17), and that the store's canonical
form is canonical (R16). -/

namespace Sys2Proof.Machine

open Sys2Proof.Config

/-! ### Every step keeps the invariant -/

section Invariant

variable {p : Params} {s t : State} {e : Entry}

/-- What well-formed parameters promise. -/
theorem params_wellFormed_iff : p.wellFormed = true ↔ p.irfCap ≤ p.addrMax ∧ p.inExt.leastWidth ≤ p.cellW := by
  simp [Params.wellFormed]

/-- Nothing runs before a program is loaded. -/
theorem Inv.loaded_of_active (h : Inv p s) (hseq : s.seq ≠ .idle) : s.ls = .loaded := by
  by_contra hl
  obtain ⟨-, -, -, -, -, -, hidle⟩ := h.notLoaded hl
  exact hseq hidle

/-! #### Leaving the run loop -/

/-- A termination reason other than a load error is true of the state it is reported of (40_engine.md R84). -/
structure ReasonHolds (p : Params) (r : TermReason) (s : State) : Prop where
  noLoadError : ¬ (r = .unexpectedEndOfBitstream ∨ r = .programTooLong)
  halted      : s.halted = true → r = .none ∨ r = .haltInstruction
  halt        : r = .haltInstruction → s.halted = true
  pc          : r = .programCounterOutOfRange → pcInRange s = false
  cap         : r = .instructionCapExceeded → s.instructionCount = p.cap
  storeFull   : p.addrMax < p.storeCap → r ≠ .storeFull

/-- The reason that stands in `TR` of a loaded program is true of the state. -/
theorem Inv.reasonHolds (h : Inv p s) (hls : s.ls = .loaded) : ReasonHolds p s.tr s where
  noLoadError he := absurd (hls.symm.trans (h.loadFailed.mpr he)) (by decide)
  halted := h.haltedReason
  halt := h.reasonHalted
  pc := h.reasonPc
  cap := h.reasonCap
  storeFull := h.noStoreFull

/-- A run that ends with a reason true of the state leaves a state that meets the invariant. -/
theorem Inv.after_endRun {r : TermReason} (h : Inv p s) (hls : s.ls = .loaded) (hr : ReasonHolds p r s) :
    Inv p (endRun r s) :=
  { h with
    notLoaded := fun hl => absurd hls hl
    unloaded := fun hl => absurd (hls.symm.trans hl) (by decide)
    loadFailed := ⟨fun hl => absurd (hls.symm.trans hl) (by decide), fun he => absurd he hr.noLoadError⟩
    haltedReason := hr.halted
    reasonHalted := hr.halt
    reasonPc := hr.pc
    reasonCap := hr.cap
    noStoreFull := hr.storeFull
    stopWhileRunning := fun hs => absurd hs (by simp)
    waitIn := fun hs => absurd hs (by simp)
    waitOut := fun hs => absurd hs (by simp) }

/-- Whichever test of the run loop ends the run, its reason is true of the state. -/
theorem Inv.after_loopTest (h : Inv p s) (hls : s.ls = .loaded) (ht : loopTest p s = some t) : Inv p t := by
  have hleave : Inv p (leaveLoop s) := h.after_endRun hls (h.reasonHolds hls)
  rcases loopTest_cases (p := p) s with ⟨-, hx⟩ | ⟨-, hh, hx⟩ | ⟨-, hh, hpc, hx⟩ | ⟨-, hh, -, hcap, hx⟩ |
    ⟨-, -, -, -, -, hx⟩ | ⟨-, -, -, -, -, hx⟩ <;> rw [hx] at ht <;> cases ht
  · exact hleave
  · exact h.after_endRun hls (by constructor <;> simp [hh])
  · exact h.after_endRun hls (by constructor <;> simp [hh, hpc])
  · have hat : s.instructionCount = p.cap := Nat.le_antisymm h.countCap hcap
    exact h.after_endRun hls (by constructor <;> simp [hh, hat])
  · exact hleave

/-! #### Inside a step -/

/-- The state is inside the step of an entry: its fetch is counted, and it has neither faulted nor ended. -/
structure InStep (p : Params) (e : Entry) (s : State) : Prop where
  inv     : Inv p s
  loaded  : s.ls = .loaded
  tr      : s.tr = .none
  halted  : s.halted = false
  counted : 0 < s.instructionCount
  fetched : fetchEntry s = some e

/-- The fetch begins a step. -/
theorem Inv.inStep_countFetch (h : Inv p s) (hls : s.ls = .loaded) (hseq : s.seq = .loop) (htr : s.tr = .none)
    (hhalt : s.halted = false) (hcount : s.instructionCount < p.cap) (he : fetchEntry s = some e) :
    InStep p e (countFetch s) where
  inv := { h with
    countCap := hcount
    notLoaded := fun hl => absurd hls hl
    reasonCap := fun hr => absurd (htr.symm.trans hr) (by decide)
    waitIn := fun hs => absurd (hseq.symm.trans hs) (by decide)
    waitOut := fun hs => absurd (hseq.symm.trans hs) (by decide) }
  loaded := hls
  tr := htr
  halted := hhalt
  counted := Nat.succ_pos _
  fetched := he

/-- A fault that its kind's cause explains keeps the invariant: `StoreFull` needs a store that can be full. -/
theorem InStep.inv_takeFault {k : FaultKind} (h : InStep p e s) (hk : k = .storeFull → ¬ p.addrMax < p.storeCap) :
    Inv p (takeFault k s) := by
  refine h.inv.after_endRun h.loaded ?_
  cases k <;> constructor <;> simp_all [FaultKind.reason, h.halted]

/-- A step that faults keeps the invariant. -/
theorem InStep.inv_of_stepFaulted (h : InStep p e (countFetch s)) (hf : StepFaulted p e s t) : Inv p t := by
  obtain ⟨k, rfl, hfull, -, -⟩ := hf
  refine h.inv_takeFault fun hk hroom => ?_
  obtain ⟨x, hx, hno⟩ := hfull hk
  have hyes : hasRoom p x s = true := hasRoom_of_wf hroom h.inv.footprintWf hx
  simp [hyes] at hno

/-- A cell written at a data address keeps the step going. -/
theorem InStep.after_memWrite {x : Nat} {v : Int} (h : InStep p e s) (hx : x ≤ p.addrMax) (hv : IsCell p v) :
    InStep p e (memWrite x v s) where
  inv := { h.inv with
    memWf := Memory.wf_write h.inv.memWf x v
    memInSpace := Memory.inSpace_write h.inv.memInSpace hx hv
    footprintWf := Footprint.wf_insert h.inv.footprintWf hx
    writtenCells := fun d hd => Footprint.mem_insert.mpr <| (Memory.mem_write hd).symm.imp
      (fun hnew => congrArg Prod.fst hnew.1) (h.inv.writtenCells d)
    notLoaded := fun hl => absurd h.loaded hl }
  loaded := h.loaded
  tr := h.tr
  halted := h.halted
  counted := h.counted
  fetched := h.fetched

/-- A collaborator's transfer leaves the step under way in the loop (the channels are not the core's). -/
theorem InStep.after_transfer (h : InStep p e s) (input : List InAnswer) (output : List Byte) :
    InStep p e { s with input := input, output := output, seq := .loop } where
  inv := { h.inv with
    notLoaded := fun hl => absurd h.loaded hl
    stopWhileRunning := fun _ hs => by cases hs
    waitIn := fun hs => by cases hs
    waitOut := fun hs => by cases hs }
  loaded := h.loaded
  tr := h.tr
  halted := h.halted
  counted := h.counted
  fetched := h.fetched

/-- A step may wait for the input source, if it has an input phase and its range checks have passed. -/
theorem InStep.inv_waitIn (h : InStep p e s) (ha : e.a.hasFunction = true) (hp : PhasesInRange p e) :
    Inv p { s with seq := .waitIn } :=
  { h.inv with
    notLoaded := fun hl => absurd h.loaded hl
    stopWhileRunning := fun _ hs => by cases hs
    waitIn := fun _ => ⟨h.tr, h.halted, h.counted, e, h.fetched, ha, hp.1 ha, hp.2⟩
    waitOut := fun hs => by cases hs }

/-- A step may wait for the sink, if it has an output phase whose range check has passed. -/
theorem InStep.inv_waitOut (h : InStep p e s) (hb : e.b.hasFunction = true) (hB : e.b.value ≤ p.addrMax) :
    Inv p { s with seq := .waitOut } :=
  { h.inv with
    notLoaded := fun hl => absurd h.loaded hl
    stopWhileRunning := fun _ hs => by cases hs
    waitIn := fun hs => by cases hs
    waitOut := fun _ => ⟨h.tr, h.halted, h.counted, e, h.fetched, hb, hB⟩ }

/-- A step ends in the loop with a program counter of the data space. -/
theorem InStep.inv_setPc (h : InStep p e s) (hseq : s.seq = .loop) {i : Int} (hi : 0 ≤ i ∧ i ≤ p.addrMax) :
    Inv p { s with pc := i } :=
  { h.inv with
    pcBounds := hi
    notLoaded := fun hl => absurd h.loaded hl
    reasonPc := fun hr => absurd (h.tr.symm.trans hr) (by decide)
    waitIn := fun hs => absurd (hseq.symm.trans hs) (by decide)
    waitOut := fun hs => absurd (hseq.symm.trans hs) (by decide) }

/-- A step ends in the loop by halting. -/
theorem InStep.inv_setHalted (h : InStep p e s) (hseq : s.seq = .loop) : Inv p { s with halted := true } :=
  { h.inv with
    notLoaded := fun hl => absurd h.loaded hl
    haltedReason := fun _ => Or.inl h.tr
    reasonHalted := fun _ => rfl
    waitIn := fun hs => absurd (hseq.symm.trans hs) (by decide)
    waitOut := fun hs => absurd (hseq.symm.trans hs) (by decide) }

/-! #### The phases -/

/-- An input phase, or none: the step is under way in the loop. -/
theorem InStep.after_inputDone (h : InStep p e s) (hw : p.inExt.leastWidth ≤ p.cellW) (hp : PhasesInRange p e)
    (hseq : s.seq = .loop ∨ e.a.hasFunction = true) (hd : InputDone p e s t) : InStep p e t ∧ t.seq = .loop := by
  rcases hd with ⟨ha, x, rest, -, rfl⟩ | ⟨ha, rfl⟩
  · exact ⟨(h.after_transfer rest s.output).after_memWrite (hp.1 ha) (isCell_inputValue hw x), rfl⟩
  · exact ⟨h, hseq.resolve_right (by simp [ha])⟩

/-- An output phase, or none: the step is under way in the loop. -/
theorem InStep.after_outputDone (h : InStep p e s) (hseq : s.seq = .loop ∨ e.b.hasFunction = true)
    (hd : OutputDone e s t) : InStep p e t ∧ t.seq = .loop := by
  rcases hd with ⟨-, -, rfl⟩ | ⟨hb, rfl⟩
  · exact ⟨h.after_transfer s.input _, rfl⟩
  · exact ⟨h, hseq.resolve_right (by simp [hb])⟩

/-- The end of a function class's step keeps the invariant. -/
theorem InStep.inv_of_stepDone (h : InStep p e s) (hirf : p.irfCap ≤ p.addrMax) (hseq : s.seq = .loop)
    (hd : StepDone e s t) : Inv p t := by
  rcases hd with ⟨-, rfl⟩ | ⟨-, rfl⟩
  · exact h.inv_setHalted hseq
  · exact h.inv_setPc hseq (pc_succ_bounds hirf h.inv.irfFits h.fetched)

/-- The rest of a step from its output phase on keeps the invariant. -/
theorem InStep.inv_of_fromOutput (h : InStep p e s) (hirf : p.irfCap ≤ p.addrMax)
    (hB : e.b.hasFunction = true → e.b.value ≤ p.addrMax) (hseq : s.seq = .loop ∨ e.b.hasFunction = true)
    (hf : FromOutput e s t) : Inv p t := by
  rcases hf with ⟨hb, -, rfl⟩ | ⟨v, hv, hd⟩
  · exact h.inv_waitOut hb (hB hb)
  · obtain ⟨hstep, hloop⟩ := h.after_outputDone hseq hv
    exact hstep.inv_of_stepDone hirf hloop hd

/-- What an input phase leaves of the sink. -/
theorem InputDone.sinkReady (h : InputDone p e s t) : t.sinkReady = s.sinkReady := by
  rcases h with ⟨-, x, rest, -, rfl⟩ | ⟨-, rfl⟩ <;> rfl

/-- The rest of a step from its input phase on waits there, or is, after it, the rest from its output phase on. -/
theorem FromInput.waits_or_fromOutput (h : FromInput p e s t) :
    (e.a.hasFunction = true ∧ t = { s with seq := .waitIn }) ∨ ∃ u, InputDone p e s u ∧ FromOutput e u t := by
  rcases h with ⟨ha, -, ht⟩ | ⟨u, hu, hb, hr, ht⟩ | ⟨u, v, hu, hv, hd⟩
  · exact Or.inl ⟨ha, ht⟩
  · exact Or.inr ⟨u, hu, Or.inl ⟨hb, hu.sinkReady.trans hr, ht⟩⟩
  · exact Or.inr ⟨u, hu, Or.inr ⟨v, hv, hd⟩⟩

/-- The rest of a step from its input phase on keeps the invariant. -/
theorem InStep.inv_of_fromInput (h : InStep p e s) (hwf : p.wellFormed = true) (hp : PhasesInRange p e)
    (hseq : s.seq = .loop ∨ e.a.hasFunction = true) (hf : FromInput p e s t) : Inv p t := by
  obtain ⟨hirf, hwidth⟩ := params_wellFormed_iff.mp hwf
  rcases hf.waits_or_fromOutput with ⟨ha, rfl⟩ | ⟨u, hu, hrest⟩
  · exact h.inv_waitIn ha hp
  · obtain ⟨hstep, hloop⟩ := h.after_inputDone hwidth hp hseq hu
    exact hstep.inv_of_fromOutput hirf hp.2 (Or.inl hloop) hrest

/-- A Subleq step that completes keeps the invariant: what it writes is a cell, and it goes on at a data address. -/
theorem InStep.inv_of_subleqDone (h : InStep p e (countFetch s)) (hwf : p.wellFormed = true) (hseq : s.seq = .loop)
    (hd : SubleqDone p e s t) : Inv p t := by
  obtain ⟨hirf, hwidth⟩ := params_wellFormed_iff.mp hwf
  have hone : 1 ≤ p.cellW := Nat.le_trans (by cases p.inExt <;> decide) hwidth
  obtain ⟨-, -, hb, r, hr, hc, -, rfl⟩ := hd
  refine (h.after_memWrite hb (isCell_narrowResult hone hr)).inv_setPc hseq ?_
  by_cases htaken : r ≤ 0
  · rw [branchPc_taken _ htaken]
    have := hc (branchTaken_iff.mpr htaken)
    omega
  · rw [branchPc_notTaken _ (by omega)]
    exact pc_succ_bounds hirf h.inv.irfFits h.fetched

/-- A whole step keeps the invariant. -/
theorem InStep.inv_of_execWith (h : InStep p e (countFetch s)) (hwf : p.wellFormed = true) (hseq : s.seq = .loop)
    (hx : execWith p e.toInstr s = .next t) : Inv p t := by
  rcases execWith_inv hx with hf | hd | ⟨-, hp, hf⟩
  · exact h.inv_of_stepFaulted hf
  · exact h.inv_of_subleqDone hwf hseq hd
  · exact h.inv_of_fromInput hwf hp (Or.inl hseq) hf

/-! #### A turn of the core -/

/-- A step that waits for input, as the invariant has it, is inside the step of its entry. -/
theorem Inv.inStep_of_waitIn (h : Inv p s) (hseq : s.seq = .waitIn) (he : fetchEntry s = some e) :
    InStep p e s ∧ PhasesInRange p e := by
  obtain ⟨htr, hhalt, hcount, d, hd, -, hA, hB⟩ := h.waitIn hseq
  obtain rfl : d = e := Option.some.inj (hd.symm.trans he)
  exact ⟨⟨h, h.loaded_of_active (by simp [hseq]), htr, hhalt, hcount, he⟩, fun _ => hA, hB⟩

/-- A step that waits for the sink, as the invariant has it, is inside the step of its entry. -/
theorem Inv.inStep_of_waitOut (h : Inv p s) (hseq : s.seq = .waitOut) (he : fetchEntry s = some e) :
    InStep p e s ∧ e.b.value ≤ p.addrMax := by
  obtain ⟨htr, hhalt, hcount, d, hd, -, hB⟩ := h.waitOut hseq
  obtain rfl : d = e := Option.some.inj (hd.symm.trans he)
  exact ⟨⟨h, h.loaded_of_active (by simp [hseq]), htr, hhalt, hcount, he⟩, hB⟩

/-- A turn of the core, whatever `SEQ`, keeps the invariant. -/
theorem Inv.after_coreTurn (h : Inv p s) (hwf : p.wellFormed = true) (ht : coreTurn p (execWith p) s = .next t) :
    Inv p t := by
  cases coreTurn_inv ht with
  | idle _ ht => exact ht ▸ h
  | leaves hseq ht => exact h.after_loopTest (h.loaded_of_active (by simp [hseq])) ht
  | steps hseq htr hhalt _ hcount _ e he hx =>
    have hls : s.ls = .loaded := h.loaded_of_active (by simp [hseq])
    exact (h.inStep_countFetch hls hseq htr hhalt hcount he).inv_of_execWith hwf hseq hx
  | resumesInput hseq e he ha hx =>
    obtain ⟨hstep, hp⟩ := h.inStep_of_waitIn hseq he
    exact hstep.inv_of_fromInput hwf hp (Or.inr ha) hx
  | resumesOutput hseq e he hb hx =>
    obtain ⟨hstep, hB⟩ := h.inStep_of_waitOut hseq he
    exact hstep.inv_of_fromOutput (params_wellFormed_iff.mp hwf).1 (fun _ => hB) (Or.inr hb) hx

/-! #### Host commands -/

/-- A decoded program fits the IRF (30_encoding.md R60): the loop appends only where there is room. -/
theorem decodeLoop_length {fuel : Nat} {first : Bool} {done es : List Entry} {bits : List Bool}
    (hdone : done.length ≤ p.irfCap) (h : decodeLoop p fuel first done bits = .ok es) : es.length ≤ p.irfCap := by
  fun_induction decodeLoop p fuel first done bits
  case case8 hroom _ =>
    cases h
    rw [List.length_append, List.length_singleton]
    omega
  case case9 hroom _ ih =>
    refine ih ?_ h
    rw [List.length_append, List.length_singleton]
    omega
  all_goals cases h
  all_goals exact hdone

/-- The core at its reset values meets the invariant. -/
theorem inv_cleared (p : Params) (s : State) : Inv p s.cleared := by
  constructor <;> simp [Memory.wf, Footprint.wf]

/-- LOAD leaves a program that fits, or a load error, in a core at its reset values. -/
theorem inv_loadProgram (p : Params) (source : List Char) (s : State) : Inv p (loadProgram p source s) := by
  unfold loadProgram
  split
  next es hes =>
    exact { inv_cleared p s with
      irfFits := decodeLoop_length (Nat.zero_le _) hes
      notLoaded := fun hl => absurd rfl hl
      unloaded := fun hl => by cases hl
      loadFailed := by simp
      waitIn := fun hs => by cases hs
      waitOut := fun hs => by cases hs
      reasonPc := fun hr => by cases hr }
  next err _ =>
    exact { inv_cleared p s with
      notLoaded := fun _ => by simp
      unloaded := fun hl => by cases hl
      loadFailed := by cases err <;> simp [loadErrorReason]
      haltedReason := fun hs => by cases hs
      reasonHalted := by cases err <;> simp [loadErrorReason]
      reasonPc := by cases err <;> simp [loadErrorReason]
      reasonCap := by cases err <;> simp [loadErrorReason]
      noStoreFull := by cases err <;> simp [loadErrorReason]
      waitIn := fun hs => by cases hs
      waitOut := fun hs => by cases hs }

/-- What the host gets back is not part of the invariant. -/
theorem Inv.after_answerHost (h : Inv p s) (r : Reply) : Inv p (answerHost r s) := { h with }

/-- A host command, carried out or refused, keeps the invariant. -/
theorem Inv.after_hostCommand (h : Inv p s) (cmd : HostCommand) : Inv p (hostCommand p cmd s) := by
  cases cmd with
  | load source =>
    simp only [hostCommand, hostLoad]
    split
    · exact (inv_loadProgram p source s).after_answerHost _
    · exact h.after_answerHost _
  | run =>
    simp only [hostCommand, hostRun]
    split
    next hok =>
      exact { h with
        notLoaded := fun hl => absurd hok.1 hl
        stopWhileRunning := fun _ hs => by cases hs
        waitIn := fun hs => by cases hs
        waitOut := fun hs => by cases hs }
    next => exact h.after_answerHost _
  | stop =>
    simp only [hostCommand, hostStop]
    split
    next => exact h.after_answerHost _
    next hactive => exact { h with stopWhileRunning := fun _ => hactive }
  | readStatus => exact h.after_answerHost _
  | readMem x =>
    simp only [hostCommand, hostReadMem]
    split <;> exact h.after_answerHost _

/-! #### A turn of the machine -/

/-- Every turn of the machine, under any well-formed parameters, keeps the invariant. -/
theorem Inv.after_stepWith (h : Inv p s) (hwf : p.wellFormed = true) (ht : stepWith p s = .next t) : Inv p t := by
  cases stepWith_inv ht with
  | core r _ ht => exact (h.withScript r).after_coreTurn hwf ht
  | host cmd r _ ht => exact ht ▸ (h.withScript r).after_hostCommand cmd
  | answer x r _ ht => exact ht ▸ { h with }
  | sink b r _ ht => exact ht ▸ { h with }

end Invariant

/-- Settles O43: the turn's inversion, and for this hardware the model at its parameters. -/
theorem stepKeepsTheInvariant : Obligations.StepKeepsTheInvariant :=
  ⟨fun s _ h ht => h.after_stepWith (by decide) (step_eq_stepWith_hw s ▸ ht),
    fun _ _ _ hwf h ht => h.after_stepWith hwf ht⟩

/-! ### `TR`, `halted` and the count -/

section Registers

variable {s t : State} {e : Entry}

/-- What a whole step does to the count and to `halted`: it is counted, and only a halt phase, which leaves `pc`, can
set `halted`. -/
theorem exec_count_halted (h : exec e.toInstr s = .next t) :
    t.instructionCount = s.instructionCount + 1 ∧
      (t.halted = s.halted ∨ (e.c.hasFunction = true ∧ t.halted = true ∧ t.pc = s.pc)) := by
  rcases exec_inv h with ⟨k, rfl, -⟩ | ⟨-, -, -, r, -, -, -, rfl⟩ | ⟨-, -, hf⟩
  · exact ⟨rfl, Or.inl rfl⟩
  · exact ⟨rfl, Or.inl rfl⟩
  · exact ⟨(fromInput_frame hf).count, (fromInput_frame hf).halted⟩

/-- A turn of the core leaves `TR` where it is set: no step is issued, and the run loop ends with the reason that is
there. -/
theorem coreTurn_tr_of_ne_none (htr : s.tr ≠ .none) (h : coreTurn hw exec s = .next t) : t.tr = s.tr := by
  cases coreTurn_inv h with
  | idle _ ht => rw [ht]
  | leaves _ ht =>
    obtain ⟨r, rfl, hr⟩ := loopTest_exit ht
    exact hr htr
  | steps _ hnone => exact absurd hnone htr
  | resumesInput _ e _ _ hx => exact (fromInput_frame hx).tr
  | resumesOutput _ e _ _ hx => exact (fromOutput_frame (p := hw) hx).tr

/-- Settles O35, over what a turn can be: the core's, or an outside event, of which only LOAD writes `TR`. -/
theorem terminationReasonIsSticky : Obligations.TerminationReasonIsSticky := by
  intro s t hload htr h
  cases step_inv h with
  | core r _ ht => exact coreTurn_tr_of_ne_none (s := { s with script := r }) htr ht
  | host cmd r hr ht =>
    obtain ⟨-, -, -, -, -, -, -, htr', -⟩ := hostCommand_frame (p := hw) hload hr
    exact ht ▸ htr'
  | answer x r _ ht => rw [ht]
  | sink b r _ ht => rw [ht]

/-- `halted` stays as it is, or the halt phase of the entry at `pc` has set it and kept `pc`. -/
def HaltedStaysOrIsSet (s t : State) : Prop :=
  t.halted = s.halted ∨ ∃ e, fetchEntry s = some e ∧ e.c.hasFunction = true ∧ t.halted = true ∧ t.pc = s.pc

/-- A turn of the core leaves `halted`, or it is the halt phase of the entry at `pc`. -/
theorem coreTurn_halted (h : coreTurn hw exec s = .next t) : HaltedStaysOrIsSet s t := by
  cases coreTurn_inv h with
  | idle _ ht => exact Or.inl (by rw [ht])
  | leaves _ ht =>
    obtain ⟨r, rfl, -⟩ := loopTest_exit ht
    exact Or.inl rfl
  | steps _ _ _ _ _ _ e he hx => exact (exec_count_halted hx).2.imp_right fun hhalt => ⟨e, he, hhalt⟩
  | resumesInput _ e he _ hx => exact (fromInput_frame hx).halted.imp_right fun hhalt => ⟨e, he, hhalt⟩
  | resumesOutput _ e he _ hx =>
    exact (fromOutput_frame (p := hw) hx).halted.imp_right fun hhalt => ⟨e, he, hhalt⟩

/-- So does a turn of the machine that is no LOAD. -/
theorem step_halted (hload : nextIsLoad s = false) (h : step s = .next t) : HaltedStaysOrIsSet s t := by
  cases step_inv h with
  | core r _ ht => exact coreTurn_halted (s := { s with script := r }) ht
  | host cmd r hr ht =>
    obtain ⟨-, -, -, -, -, hhalt, -⟩ := hostCommand_frame (p := hw) hload hr
    exact Or.inl (ht ▸ hhalt)
  | answer x r _ ht => exact Or.inl (by rw [ht])
  | sink b r _ ht => exact Or.inl (by rw [ht])

/-- Settles O36, from what a turn does to `halted`. -/
theorem haltedIsSetByTheHaltPhaseOnly : Obligations.HaltedIsSetByTheHaltPhaseOnly := by
  intro s t hload h
  rcases step_halted hload h with hsame | ⟨e, he, hc, hset, hpc⟩
  · exact ⟨fun hs => hsame.trans hs, fun hs ht => absurd ((hsame.trans hs).symm.trans ht) (by decide)⟩
  · exact ⟨fun _ => hset, fun _ _ => ⟨e, he, hc, hpc⟩⟩

/-- Settles O39, over what a turn can be: only a step that the run loop issues is counted, and outside a waiting step
nothing else executes. -/
theorem countRisesByOneAtAFetch : Obligations.CountRisesByOneAtAFetch := by
  intro s t hinv hload h
  cases step_inv h with
  | core r _ ht =>
    cases coreTurn_inv ht with
    | idle _ ht => exact ht ▸ Or.inr ⟨rfl, fun _ _ => ⟨rfl, rfl, rfl, rfl, rfl⟩⟩
    | leaves _ ht =>
      obtain ⟨r, rfl, -⟩ := loopTest_exit ht
      exact Or.inr ⟨rfl, fun _ _ => ⟨rfl, rfl, rfl, rfl, rfl⟩⟩
    | steps hseq htr hhalt hpc hcount hstop e he hx =>
      have hloop : s.seq = .loop := hseq
      have hls : s.ls = .loaded := hinv.loaded_of_active (by simp [hloop])
      obtain ⟨hlow, hhigh⟩ := pcInRange_iff.mp hpc
      exact Or.inl ⟨(exec_count_halted hx).1, ⟨hls, hseq, htr, hhalt, hlow, hhigh, hcount, hstop⟩,
        Option.isSome_of_eq_some he⟩
    | resumesInput hseq e _ _ hx => exact Or.inr ⟨(fromInput_frame hx).count, fun hn _ => absurd hseq hn⟩
    | resumesOutput hseq e _ _ hx =>
      exact Or.inr ⟨(fromOutput_frame (p := hw) hx).count, fun _ hn => absurd hseq hn⟩
  | host cmd r hr ht =>
    obtain ⟨-, -, hmem, hfoot, hpc, hhalt, hcount, -, hout, -⟩ := hostCommand_frame (p := hw) hload hr
    exact ht ▸ Or.inr ⟨hcount, fun _ _ => ⟨hmem, hfoot, hpc, hout, hhalt⟩⟩
  | answer x r _ ht => exact ht ▸ Or.inr ⟨rfl, fun _ _ => ⟨rfl, rfl, rfl, rfl, rfl⟩⟩
  | sink b r _ ht => exact ht ▸ Or.inr ⟨rfl, fun _ _ => ⟨rfl, rfl, rfl, rfl, rfl⟩⟩

end Registers

/-! ### The footprint -/

section FootprintUnobservable

variable {p : Params} {s t : State}

/-- The two states differ at most in the footprint. -/
def SameButFootprint (s t : State) : Prop := ∃ f, t = { s with footprint := f }

/-- Where the first outcome is a next state, the second is one that differs at most in the footprint. -/
def OutcomesAgree (o o' : Host.Outcome State Fault Refusal) : Prop :=
  ∀ u, o = .next u → ∃ f, o' = .next { u with footprint := f }

/-- The two parts of a step end alike, in states that differ at most in the footprint. -/
inductive FlowsAgree : Flow → Flow → Prop where
  | go {s t : State} (h : SameButFootprint s t) : FlowsAgree (.go s) (.go t)
  | stop {s t : State} (h : SameButFootprint s t) : FlowsAgree (.stop s) (.stop t)

/-- The part of a step does the same in states that differ at most in the footprint. -/
def IgnoresFootprint (g : State → Flow) : Prop := ∀ s t, SameButFootprint s t → FlowsAgree (g s) (g t)

theorem SameButFootprint.seq (h : SameButFootprint s t) : t.seq = s.seq := by
  obtain ⟨f, rfl⟩ := h
  rfl

theorem SameButFootprint.fetchEntry (h : SameButFootprint s t) : fetchEntry t = fetchEntry s := by
  obtain ⟨f, rfl⟩ := h
  rfl

theorem SameButFootprint.memRead (h : SameButFootprint s t) (x : Nat) : memRead t x = memRead s x := by
  obtain ⟨f, rfl⟩ := h
  rfl

theorem SameButFootprint.outcomesAgree (h : SameButFootprint s t) : OutcomesAgree (.next s) (.next t) := by
  obtain ⟨f, rfl⟩ := h
  intro u hu
  cases hu
  exact ⟨f, rfl⟩

theorem FlowsAgree.outcome {f g : Flow} (h : FlowsAgree f g) : OutcomesAgree f.outcome g.outcome := by
  cases h with
  | go h | stop h => exact h.outcomesAgree

theorem FlowsAgree.andThen {f g : Flow} {k : State → Flow} (h : FlowsAgree f g) (hk : IgnoresFootprint k) :
    FlowsAgree (f.andThen k) (g.andThen k) := by
  cases h with
  | go h => exact hk _ _ h
  | stop h => exact .stop h

theorem IgnoresFootprint.andThen {f k : State → Flow} (hf : IgnoresFootprint f) (hk : IgnoresFootprint k) :
    IgnoresFootprint fun s => (f s).andThen k := fun s t h => (hf s t h).andThen hk

theorem Flow.andThen_assoc (f : Flow) (g k : State → Flow) :
    (f.andThen g).andThen k = f.andThen fun s => (g s).andThen k := by
  cases f <;> rfl

/-! #### The phases of a step -/

theorem haltPhase_ignoresFootprint : IgnoresFootprint haltPhase := fun _ _ ⟨f, h⟩ => h ▸ .go ⟨f, rfl⟩

theorem fallThrough_ignoresFootprint : IgnoresFootprint fallThrough := fun _ _ ⟨f, h⟩ => h ▸ .go ⟨f, rfl⟩

theorem inputPhase_ignoresFootprint (p : Params) (a : Nat) : IgnoresFootprint (inputPhase p a) := by
  rintro s _ ⟨f, rfl⟩
  rcases nil_or_cons s.input with hi | ⟨x, rest, hi⟩
  · rw [inputPhase_unanswered p a hi, inputPhase_unanswered p a (s := { s with footprint := f }) hi]
    exact .stop ⟨f, rfl⟩
  · rw [inputPhase_answered p a hi, inputPhase_answered p a (s := { s with footprint := f }) hi]
    exact .go ⟨f.insert a, rfl⟩

theorem outputPhase_ignoresFootprint (b : Nat) : IgnoresFootprint (outputPhase b) := by
  rintro s _ ⟨f, rfl⟩
  rcases Bool.eq_false_or_eq_true s.sinkReady with hr | hr
  · rw [outputPhase_ready b hr, outputPhase_ready b (s := { s with footprint := f }) hr]
    exact .go ⟨f, rfl⟩
  · rw [outputPhase_notReady b hr, outputPhase_notReady b (s := { s with footprint := f }) hr]
    exact .stop ⟨f, rfl⟩

theorem writeBack_ignoresFootprint (b c : Nat) (r : Int) : IgnoresFootprint (writeBack b c r) :=
  fun _ _ ⟨f, h⟩ => h ▸ .go ⟨f.insert b, rfl⟩

/-- An input phase, and what comes after it. -/
theorem inputThen_ignoresFootprint (p : Params) (a : Nat) {k : State → Flow} (hk : IgnoresFootprint k) :
    IgnoresFootprint fun s => (inputPhase p a s).andThen k := (inputPhase_ignoresFootprint p a).andThen hk

/-- An output phase, and what comes after it. -/
theorem outputThen_ignoresFootprint (b : Nat) {k : State → Flow} (hk : IgnoresFootprint k) :
    IgnoresFootprint fun s => (outputPhase b s).andThen k := (outputPhase_ignoresFootprint b).andThen hk

/-- The rest of a step that waits for input does the same whatever the footprint. -/
theorem resumeInput_ignoresFootprint {i : Instr} {f : Flow} (h : SameButFootprint s t)
    (hf : resumeInput p i s = some f) :
    ∃ g, resumeInput p i t = some g ∧ FlowsAgree f g := by
  cases i with
  | subleq | halt | out | outHalt => cases hf
  | inp a =>
    cases hf
    exact ⟨_, rfl, inputThen_ignoresFootprint p a fallThrough_ignoresFootprint s t h⟩
  | inpHalt a =>
    cases hf
    exact ⟨_, rfl, inputThen_ignoresFootprint p a haltPhase_ignoresFootprint s t h⟩
  | inpOut a b =>
    cases hf
    exact ⟨_, rfl,
      inputThen_ignoresFootprint p a (outputThen_ignoresFootprint b fallThrough_ignoresFootprint) s t h⟩
  | inpOutHalt a b =>
    cases hf
    exact ⟨_, rfl, inputThen_ignoresFootprint p a (outputThen_ignoresFootprint b haltPhase_ignoresFootprint) s t h⟩

/-- The rest of a step that waits for the sink does the same whatever the footprint. -/
theorem resumeOutput_ignoresFootprint {i : Instr} {f : Flow} (h : SameButFootprint s t)
    (hf : resumeOutput i s = some f) :
    ∃ g, resumeOutput i t = some g ∧ FlowsAgree f g := by
  cases i with
  | subleq | halt | inp | inpHalt => cases hf
  | out _ b | inpOut _ b =>
    cases hf
    exact ⟨_, rfl, outputThen_ignoresFootprint b fallThrough_ignoresFootprint s t h⟩
  | outHalt _ b | inpOutHalt _ b =>
    cases hf
    exact ⟨_, rfl, outputThen_ignoresFootprint b haltPhase_ignoresFootprint s t h⟩

/-! #### The checks -/

theorem SameButFootprint.countFetch (h : SameButFootprint s t) : SameButFootprint (countFetch s) (countFetch t) := by
  obtain ⟨f, rfl⟩ := h
  exact ⟨f, rfl⟩

theorem SameButFootprint.takeFault (k : FaultKind) (h : SameButFootprint s t) :
    SameButFootprint (takeFault k s) (takeFault k t) := by
  obtain ⟨f, rfl⟩ := h
  exact ⟨f, rfl⟩

/-- A range check does not read the footprint, and what comes after it may use that it passed. -/
theorem checkAddress_andThen_ignoresFootprint {v : Nat} {k : State → Flow} (h : SameButFootprint s t)
    (hk : v ≤ p.addrMax → FlowsAgree (k s) (k t)) :
    FlowsAgree ((checkAddress p v s).andThen k) ((checkAddress p v t).andThen k) := by
  by_cases hv : v ≤ p.addrMax
  · simpa only [checkAddress_of_le hv, Flow.go_andThen] using hk hv
  · simpa only [checkAddress_of_gt (Nat.lt_of_not_le hv), Flow.stop_andThen] using .stop (h.takeFault _)

/-- The capacity check of a data address passes whatever the footprint, where the store has room for every one
(40_engine.md R74). -/
theorem checkRoom_ignoresFootprint (hp : p.addrMax < p.storeCap) {x : Nat} (hx : x ≤ p.addrMax)
    (hs : Footprint.wf p s.footprint) (ht : Footprint.wf p t.footprint) (h : SameButFootprint s t) :
    FlowsAgree (checkRoom p x s) (checkRoom p x t) := by
  rw [checkRoom_of_room (hasRoom_of_wf hp hs hx), checkRoom_of_room (hasRoom_of_wf hp ht hx)]
  exact .go h

/-- The arithmetic, branch and write-back of a Subleq step with a destination in range. -/
theorem subtractAndBranch_ignoresFootprint (hp : p.addrMax < p.storeCap) (a : Nat) {b : Nat} (c : Nat)
    (hb : b ≤ p.addrMax) (hs : Footprint.wf p s.footprint) (ht : Footprint.wf p t.footprint)
    (h : SameButFootprint s t) :
    FlowsAgree (subtractAndBranch p a b c s) (subtractAndBranch p a b c t) := by
  unfold subtractAndBranch
  rw [h.memRead, h.memRead]
  cases narrowResult p (difference (memRead s a) (memRead s b)) with
  | none => exact .stop (h.takeFault _)
  | some r =>
    have hwrite : FlowsAgree ((checkRoom p b s).andThen (writeBack b c r))
        ((checkRoom p b t).andThen (writeBack b c r)) :=
      (checkRoom_ignoresFootprint hp hb hs ht h).andThen (writeBack_ignoresFootprint b c r)
    simp only [Flow.andThen_assoc, checkTarget]
    split
    · exact checkAddress_andThen_ignoresFootprint h fun _ => hwrite
    · exact hwrite

/-! #### Turns -/

/-- A step of an instruction does the same whatever the footprint, where the store has room for every data address. -/
theorem execWith_ignoresFootprint (hp : p.addrMax < p.storeCap) (i : Instr) (hs : Footprint.wf p s.footprint)
    (ht : Footprint.wf p t.footprint) (h : SameButFootprint s t) :
    OutcomesAgree (execWith p i s) (execWith p i t) := by
  have hc := h.countFetch
  have hroom : ∀ {x}, x ≤ p.addrMax → FlowsAgree (checkRoom p x (countFetch s)) (checkRoom p x (countFetch t)) :=
    fun hx => checkRoom_ignoresFootprint hp hx hs ht hc
  have hend := fallThrough_ignoresFootprint
  have hhalt := haltPhase_ignoresFootprint
  cases i with
  | subleq a b c =>
    simp only [execWith, subleqWith, Flow.andThen_assoc]
    exact (checkAddress_andThen_ignoresFootprint hc fun _ => checkAddress_andThen_ignoresFootprint hc fun hb =>
      subtractAndBranch_ignoresFootprint hp a c hb hs ht hc).outcome
  | halt => exact (hhalt _ _ hc).outcome
  | out _ b =>
    exact (checkAddress_andThen_ignoresFootprint hc fun _ => outputThen_ignoresFootprint b hend _ _ hc).outcome
  | outHalt _ b =>
    exact (checkAddress_andThen_ignoresFootprint hc fun _ => outputThen_ignoresFootprint b hhalt _ _ hc).outcome
  | inp a =>
    simp only [execWith, inpWith, Flow.andThen_assoc]
    exact (checkAddress_andThen_ignoresFootprint hc fun ha =>
      (hroom ha).andThen (inputThen_ignoresFootprint p a hend)).outcome
  | inpHalt a =>
    simp only [execWith, inpHaltWith, Flow.andThen_assoc]
    exact (checkAddress_andThen_ignoresFootprint hc fun ha =>
      (hroom ha).andThen (inputThen_ignoresFootprint p a hhalt)).outcome
  | inpOut a b =>
    simp only [execWith, inpOutWith, Flow.andThen_assoc]
    exact (checkAddress_andThen_ignoresFootprint hc fun ha => checkAddress_andThen_ignoresFootprint hc fun _ =>
      (hroom ha).andThen (inputThen_ignoresFootprint p a (outputThen_ignoresFootprint b hend))).outcome
  | inpOutHalt a b =>
    simp only [execWith, inpOutHaltWith, Flow.andThen_assoc]
    exact (checkAddress_andThen_ignoresFootprint hc fun ha => checkAddress_andThen_ignoresFootprint hc fun _ =>
      (hroom ha).andThen (inputThen_ignoresFootprint p a (outputThen_ignoresFootprint b hhalt))).outcome

/-- The tests of the run loop do not read the footprint. -/
theorem loopTest_withFootprint (s : State) (f : Footprint) :
    loopTest p { s with footprint := f } = (loopTest p s).map fun u => { u with footprint := f } := by
  have hpc : pcInRange { s with footprint := f } = pcInRange s := rfl
  unfold loopTest
  rw [hpc]
  split_ifs <;> rfl

/-- A round of the run loop does the same whatever the footprint, if the issued step does. -/
theorem loopTurn_ignoresFootprint {run : Instr → State → Host.Outcome State Fault Refusal}
    (h : SameButFootprint s t) (hrun : ∀ i, OutcomesAgree (run i s) (run i t)) :
    OutcomesAgree (loopTurn p run s) (loopTurn p run t) := by
  have hfetch := h.fetchEntry
  obtain ⟨f, rfl⟩ := h
  unfold loopTurn
  rw [loopTest_withFootprint s f, hfetch]
  cases loopTest p s with
  | some u => exact SameButFootprint.outcomesAgree ⟨f, rfl⟩
  | none =>
    cases fetchEntry s with
    | some e => exact hrun e.toInstr
    | none => exact fun u hu => by cases hu

/-- A step that waited goes on the same, if the rest of every step does. -/
theorem resumeStep_ignoresFootprint {rest : Instr → State → Option Flow} (h : SameButFootprint s t)
    (hrest : ∀ i f, rest i s = some f → ∃ g, rest i t = some g ∧ FlowsAgree f g) :
    OutcomesAgree (resumeStep rest s) (resumeStep rest t) := by
  intro u hu
  unfold resumeStep at hu ⊢
  rw [h.fetchEntry]
  cases he : fetchEntry s with
  | none => simp [he] at hu
  | some e =>
    cases hf : rest e.toInstr s with
    | none => simp [he, hf] at hu
    | some f =>
      obtain ⟨g, hg, hfg⟩ := hrest _ _ hf
      simp only [he, hf] at hu
      simpa only [hg] using hfg.outcome u hu

/-- A turn of the core does the same whatever the footprint, where the store has room for every data address. -/
theorem coreTurn_ignoresFootprint (hp : p.addrMax < p.storeCap) (hs : Footprint.wf p s.footprint)
    (ht : Footprint.wf p t.footprint) (h : SameButFootprint s t) :
    OutcomesAgree (coreTurn p (execWith p) s) (coreTurn p (execWith p) t) := by
  unfold coreTurn
  rw [h.seq]
  cases s.seq with
  | idle => exact h.outcomesAgree
  | loop => exact loopTurn_ignoresFootprint h fun i => execWith_ignoresFootprint hp i hs ht h
  | waitIn => exact resumeStep_ignoresFootprint h fun _ _ => resumeInput_ignoresFootprint h
  | waitOut => exact resumeStep_ignoresFootprint h fun _ _ => resumeOutput_ignoresFootprint h

/-- No host command reads the footprint: LOAD empties it, the others leave it. -/
theorem hostCommand_ignoresFootprint (cmd : HostCommand) (h : SameButFootprint s t) :
    SameButFootprint (hostCommand p cmd s) (hostCommand p cmd t) := by
  obtain ⟨f, rfl⟩ := h
  cases cmd with
  | load source =>
    simp only [hostCommand, hostLoad]
    split
    · exact ⟨_, rfl⟩
    · exact ⟨f, rfl⟩
  | run =>
    simp only [hostCommand, hostRun]
    split <;> exact ⟨f, rfl⟩
  | stop =>
    simp only [hostCommand, hostStop]
    split <;> exact ⟨f, rfl⟩
  | readStatus => exact ⟨f, rfl⟩
  | readMem x =>
    simp only [hostCommand, hostReadMem]
    split <;> exact ⟨f, rfl⟩

/-- A turn of the machine does the same whatever the footprint, where the store has room for every data address. -/
theorem stepWith_ignoresFootprint (hp : p.addrMax < p.storeCap) (hs : Footprint.wf p s.footprint) {f : Footprint}
    (hf : Footprint.wf p f) : OutcomesAgree (stepWith p s) (stepWith p { s with footprint := f }) := by
  unfold stepWith machineTurn
  dsimp only
  cases hscript : s.script with
  | nil => exact coreTurn_ignoresFootprint hp hs hf ⟨f, by rw [hscript]⟩
  | cons e rest =>
    cases e with
    | core => exact coreTurn_ignoresFootprint hp hs hf ⟨f, rfl⟩
    | host cmd => exact (hostCommand_ignoresFootprint cmd ⟨f, rfl⟩).outcomesAgree
    | inputAnswer x | sinkReady b => exact SameButFootprint.outcomesAgree ⟨f, rfl⟩

end FootprintUnobservable

/-- Settles O41: this hardware has a store entry for every data address, so the only check that reads the footprint
passes. -/
theorem footprintIsUnobservable : Obligations.FootprintIsUnobservable := by
  intro s t f hs hf h
  rw [step_eq_stepWith_hw] at h ⊢
  exact stepWith_ignoresFootprint hardware_hasRoom hs hf t h

/-! ### Canonical stores -/

/-- A listed cell that comes first reads as it is listed. -/
theorem Memory.read_head (k : Nat) (v : Int) (m : Memory) : Memory.read ((k, v) :: m) k = v := if_pos rfl

/-- Above its first address a store reads as its rest. -/
theorem Memory.read_cons_of_lt {k x : Nat} (h : k < x) (v : Int) (m : Memory) :
    Memory.read ((k, v) :: m) x = m.read x := by
  rw [Memory.read, if_neg (by omega), if_neg (by omega)]

/-- In a canonical store the rest reads as never written up to the first address. -/
theorem Memory.read_tail_of_le {k x : Nat} {v : Int} {m : Memory} (h : Memory.wf ((k, v) :: m)) (hx : x ≤ k) :
    m.read x = unlistedCell :=
  Memory.read_below fun y hy => Nat.lt_of_le_of_lt hx ((List.pairwise_cons.mp h.1).1 y hy)

/-- The first address of a canonical store is one that does not read as never written, so a store that reads alike
begins no later. -/
theorem Memory.head_le_of_read_eq {k l : Nat} {v w : Int} {m n : Memory} (hm : Memory.wf ((k, v) :: m))
    (h : ∀ x, Memory.read ((k, v) :: m) x = Memory.read ((l, w) :: n) x) : l ≤ k := by
  by_contra hlt
  have hlisted : v ≠ unlistedCell := hm.2 (k, v) List.mem_cons_self
  have hunlisted : Memory.read ((l, w) :: n) k = unlistedCell := by
    rw [Memory.read, if_neg (by omega), if_pos (by omega)]
  exact hlisted (by rw [← Memory.read_head k v m, h k, hunlisted])

/-- A canonical store that lists a cell does not read as the empty one. -/
theorem Memory.read_head_ne_nil {k : Nat} {v : Int} {m : Memory} (h : Memory.wf ((k, v) :: m)) :
    Memory.read ((k, v) :: m) k ≠ Memory.read [] k := by
  rw [Memory.read_head]
  exact h.2 (k, v) List.mem_cons_self

/-- Settles O47, by induction on the first store: the two begin at the same address with the same cell, and their rests
read alike. -/
theorem canonicalStoresAreExtensional : Obligations.CanonicalStoresAreExtensional := by
  intro m
  induction m with
  | nil =>
    intro n _ hn h
    cases n with
    | nil => rfl
    | cons e n => exact absurd (h e.1).symm (Memory.read_head_ne_nil hn)
  | cons d m ih =>
    intro n hm hn h
    obtain ⟨k, v⟩ := d
    cases n with
    | nil => exact absurd (h k) (Memory.read_head_ne_nil hm)
    | cons e n =>
      obtain ⟨l, w⟩ := e
      obtain rfl : k = l :=
        Nat.le_antisymm (Memory.head_le_of_read_eq hn fun x => (h x).symm) (Memory.head_le_of_read_eq hm h)
      obtain rfl : v = w := by simpa only [Memory.read_head] using h k
      have htails : ∀ x, Memory.read m x = Memory.read n x := fun x => by
        rcases Nat.lt_or_ge k x with hx | hx
        · simpa only [Memory.read_cons_of_lt hx] using h x
        · rw [Memory.read_tail_of_le hm hx, Memory.read_tail_of_le hn hx]
      rw [ih n (Memory.wf_tail hm) (Memory.wf_tail hn) htails]

end Sys2Proof.Machine
end

section
/-! PROOFS. The family of 20_memory.md: what the input and output phases convert (R41, R43), the wait for the output
sink (R42), that only LOAD writes the program (R45), and how far one turn moves the two channels (R40, R42, R44). -/

namespace Sys2Proof.Machine

open Sys2Proof.Config

/-! ### Conversions -/

/-- A byte as two's complement lies in `-128..127`. -/
theorem signExtend_bounds (x : Byte) : -128 ≤ signExtend x ∧ signExtend x ≤ 127 :=
  ⟨x.le_toInt, Int.le_of_lt_add_one x.toInt_lt⟩

/-- Under `IN_EXT = ZERO` an input phase writes the byte as unsigned. -/
theorem inputValue_byte_zero {p : Params} (hp : p.inExt = .zero) (x : Byte) :
    inputValue p (.byte x) = zeroExtend x := by
  simp only [inputValue, hp]

/-- Under `IN_EXT = SIGN` an input phase writes the byte as two's complement. -/
theorem inputValue_byte_sign {p : Params} (hp : p.inExt = .sign) (x : Byte) :
    inputValue p (.byte x) = signExtend x := by
  simp only [inputValue, hp]

/-- The low 8 bits of a two's-complement form are the integer mod 256. -/
theorem trunc8_toNat (v : Int) : ((trunc8 v).toNat : Int) = v % 256 := by
  rw [trunc8, BitVec.toNat_ofInt]
  exact Int.toNat_of_nonneg (Int.emod_nonneg v (by decide))

/-- Settles O48, conversion by conversion. -/
theorem conversionsAreExtensionAndTruncation : Obligations.ConversionsAreExtensionAndTruncation :=
  ⟨fun _ => rfl, fun _ x hp => inputValue_byte_zero hp x,
    fun _ x hp => ⟨inputValue_byte_sign hp x, signExtend_bounds x⟩, rfl, rfl, trunc8_toNat⟩

/-! ### Waiting for the sink -/

section SinkWaits

variable {p : Params} {e : Entry} {s : State}

/-- While the sink does not acknowledge, the rest of a step from its output phase on is the wait. -/
theorem resumeOutput_notReady (hb : e.b.hasFunction = true) (hr : s.sinkReady = false) :
    resumeOutput e.toInstr s = some (.stop { s with seq := .waitOut }) := by
  obtain ⟨⟨a, fa⟩, ⟨b, fb⟩, ⟨c, fc⟩⟩ := e
  obtain rfl : fb = true := hb
  cases fa <;> cases fc <;>
    simp only [Entry.toInstr, resumeOutput, outFromOutput, outHaltFromOutput, inpOutFromOutput, inpOutHaltFromOutput,
      outputPhase_notReady _ hr, Flow.stop_andThen]

/-- An output class without input whose check has passed waits for the sink; only its count has been taken. -/
theorem execWith_output_notReady (ha : e.a.hasFunction = false) (hb : e.b.hasFunction = true)
    (hp : PhasesInRange p e) (hr : s.sinkReady = false) :
    execWith p e.toInstr s = .next { countFetch s with seq := .waitOut } := by
  obtain ⟨f, hf, hx⟩ := execWith_of_output (s := s) ha hb hp
  obtain rfl := Option.some.inj (hf.symm.trans (resumeOutput_notReady hb hr))
  exact hx

/-- A class with both phases whose checks have passed waits for the sink with its answer taken and stored. -/
theorem execWith_both_notReady (ha : e.a.hasFunction = true) (hb : e.b.hasFunction = true) (hp : PhasesInRange p e)
    (hroom : hasRoom p e.a.value s = true) {x : InAnswer} {rest : List InAnswer} (hi : s.input = x :: rest)
    (hr : s.sinkReady = false) :
    execWith p e.toInstr s = .next (memWrite e.a.value (inputValue p x)
      { countFetch s with input := rest, seq := .waitOut }) := by
  obtain ⟨f, hf, hx⟩ := execWith_of_input ha hp hroom
  have hwait := (resumeInput_of_both (p := p) (s := countFetch s) ha hb hi).trans (resumeOutput_notReady hb hr)
  obtain rfl := Option.some.inj (hf.symm.trans hwait)
  exact hx

/-- A write leaves every cell and footprint address but its own. -/
theorem sameStoreBut_memWrite (h : Memory.wf s.mem) (x : Nat) (v : Int) : SameStoreBut x s (memWrite x v s) where
  cells _ hy := memRead_memWrite_other h hy v
  footprint _ := Footprint.mem_insert

end SinkWaits

/-- Settles O18: the checks pass, an input phase there is has its answer, and the output phase is the wait. -/
theorem outputClassesWaitForTheSink : Obligations.OutputClassesWaitForTheSink := by
  intro e s hb hB hr
  constructor
  · intro ha
    have hp : PhasesInRange hw e := ⟨fun h => absurd h (by simp [ha]), fun _ => hB⟩
    exact (exec_toInstr e s).trans (execWith_output_notReady ha hb hp hr)
  · intro x rest ha hA hroom hwf hi
    have hexec := execWith_both_notReady ha hb ⟨fun _ => hA, fun _ => hB⟩ (hasRoom_of_roomFor hroom) hi hr
    obtain ⟨hcells, hfoot⟩ := sameStoreBut_memWrite hwf e.a.value (inputValue hw x)
    refine ⟨_, (exec_toInstr e s).trans hexec, rfl, ?_, ⟨hcells, hfoot⟩, rfl, rfl, rfl, rfl, rfl,
      ⟨rfl, rfl, rfl, rfl, rfl, rfl, rfl⟩⟩
    rw [← inputValue_hw x]
    exact memRead_memWrite_same hwf e.a.value _

/-! ### The program -/

section Program

variable {s t : State} {e : Entry}

/-- The program, and whether one is loaded, are as they were. -/
def SameProgram (s t : State) : Prop := t.irf = s.irf ∧ t.ls = s.ls

/-- The step of an instruction, faulted, held or completed, leaves the program. -/
theorem exec_sameProgram (h : exec e.toInstr s = .next t) : SameProgram s t := by
  rcases exec_inv h with ⟨k, rfl, -⟩ | ⟨-, -, -, r, -, -, -, rfl⟩ | ⟨-, -, hf⟩
  · exact ⟨rfl, rfl⟩
  · exact ⟨rfl, rfl⟩
  · exact ⟨(fromInput_frame hf).irf, (fromInput_frame hf).ls⟩

/-- A turn of the core, whatever `SEQ`, leaves the program. -/
theorem coreTurn_sameProgram (h : coreTurn hw exec s = .next t) : SameProgram s t := by
  cases coreTurn_inv h with
  | idle _ ht => exact ht ▸ ⟨rfl, rfl⟩
  | leaves _ ht =>
    obtain ⟨r, rfl, -⟩ := loopTest_exit ht
    exact ⟨rfl, rfl⟩
  | steps _ _ _ _ _ _ e _ hx => exact exec_sameProgram hx
  | resumesInput _ e _ _ hx => exact ⟨(fromInput_frame hx).irf, (fromInput_frame hx).ls⟩
  | resumesOutput _ e _ _ hx =>
    exact ⟨(fromOutput_frame (p := hw) hx).irf, (fromOutput_frame (p := hw) hx).ls⟩

end Program

/-- Settles O38, over what a turn can be: the core's, or an outside event, of which only LOAD writes the program. -/
theorem onlyLoadWritesTheProgram : Obligations.OnlyLoadWritesTheProgram := by
  intro s t hload h
  cases step_inv h with
  | core r _ ht => exact coreTurn_sameProgram (s := { s with script := r }) ht
  | host cmd r hr ht =>
    obtain ⟨hirf, hls, -⟩ := hostCommand_frame (p := hw) hload hr
    exact ht ▸ ⟨hirf, hls⟩
  | answer x r _ ht => exact ht ▸ ⟨rfl, rfl⟩
  | sink b r _ ht => exact ht ▸ ⟨rfl, rfl⟩

/-! ### The channels -/

section Channels

variable {p : Params} {s t : State} {e : Entry}

/-- How a turn of the core can move the channels: one byte more at the output's end, the input's first answer taken. -/
structure CoreChannels (s t : State) : Prop where
  output : t.output = s.output ∨ ∃ y, t.output = s.output ++ [y]
  input  : t.input = s.input ∨ ∃ x, s.input = x :: t.input

/-- Channels left alone have moved within bounds. -/
theorem CoreChannels.of_eq (ho : t.output = s.output) (hi : t.input = s.input) : CoreChannels s t :=
  ⟨Or.inl ho, Or.inl hi⟩

/-- The phases of a step output one byte and take one answer at most. -/
theorem PhaseFrame.coreChannels (h : PhaseFrame p e s t) : CoreChannels s t := ⟨h.output, h.input⟩

/-- So does the whole step; a fault and a Subleq step leave both channels. -/
theorem exec_coreChannels (h : exec e.toInstr s = .next t) : CoreChannels s t := by
  rcases exec_inv h with ⟨k, rfl, -⟩ | ⟨-, -, -, r, -, -, -, rfl⟩ | ⟨-, -, hf⟩
  · exact .of_eq rfl rfl
  · exact .of_eq rfl rfl
  · obtain ⟨hout, hin⟩ := (fromInput_frame hf).coreChannels
    exact ⟨hout, hin⟩

/-- So does a turn of the core, whatever `SEQ`. -/
theorem coreTurn_coreChannels (h : coreTurn hw exec s = .next t) : CoreChannels s t := by
  cases coreTurn_inv h with
  | idle _ ht => exact ht ▸ .of_eq rfl rfl
  | leaves _ ht =>
    obtain ⟨r, rfl, -⟩ := loopTest_exit ht
    exact .of_eq rfl rfl
  | steps _ _ _ _ _ _ e _ hx => exact exec_coreChannels hx
  | resumesInput _ e _ _ hx => exact (fromInput_frame hx).coreChannels
  | resumesOutput _ e _ _ hx => exact (fromOutput_frame (p := hw) hx).coreChannels

/-- A load, of a program or of an error, leaves both channels. -/
theorem loadProgram_channels (p : Params) (source : List Char) (s : State) :
    (loadProgram p source s).output = s.output ∧ (loadProgram p source s).input = s.input := by
  unfold loadProgram
  cases decodeSource p source <;> exact ⟨rfl, rfl⟩

/-- No host command, LOAD included, moves a channel. -/
theorem hostCommand_channels (p : Params) (cmd : HostCommand) (s : State) :
    (hostCommand p cmd s).output = s.output ∧ (hostCommand p cmd s).input = s.input := by
  cases cmd with
  | load source =>
    simp only [hostCommand, hostLoad]
    split
    · exact loadProgram_channels p source s
    · exact ⟨rfl, rfl⟩
  | run => simp only [hostCommand, hostRun]; split <;> exact ⟨rfl, rfl⟩
  | stop => simp only [hostCommand, hostStop]; split <;> exact ⟨rfl, rfl⟩
  | readStatus => exact ⟨rfl, rfl⟩
  | readMem x => simp only [hostCommand, hostReadMem]; split <;> exact ⟨rfl, rfl⟩

end Channels

/-- Settles O40, over what a turn can be: the core's moves, an answer that comes, or neither channel touched. -/
theorem channelsMoveOneByteAtATime : Obligations.ChannelsMoveOneByteAtATime := by
  intro s t h
  cases step_inv h with
  | core r _ ht =>
    obtain ⟨hout, hin⟩ := coreTurn_coreChannels (s := { s with script := r }) ht
    exact ⟨hout, hin.imp_right Or.inl⟩
  | host cmd r _ ht =>
    obtain ⟨hout, hin⟩ := hostCommand_channels hw cmd { s with script := r }
    exact ht ▸ ⟨Or.inl hout, Or.inl hin⟩
  | answer x r _ ht => exact ht ▸ ⟨Or.inl rfl, Or.inr (Or.inr ⟨x, rfl⟩)⟩
  | sink b r _ ht => exact ht ▸ ⟨Or.inl rfl, Or.inl rfl⟩

end Sys2Proof.Machine
end

section
/-! PROOFS. The family of 30_encoding.md: what the decoder reads of an address, whole, cut short or canonical (R51 to
R57, R67), of a program and what follows it (R54, R58 to R60), of a source (R47), and the selector map (R64). -/

namespace Sys2Proof

open Sys2Proof.Machine Sys2Proof.Config

/-! ### The selector map -/

theorem toInstr_toEntry (i : Instr) : i.toEntry.toInstr = i := by
  cases i <;> rfl

theorem toEntry_toInstr (e : Entry) : e.toInstr.toEntry = e := by
  obtain ⟨⟨a, fa⟩, ⟨b, fb⟩, ⟨c, fc⟩⟩ := e
  cases fa <;> cases fb <;> cases fc <;> rfl

/-- The entries an instruction stands for are one. -/
theorem toInstr_eq_iff {e : Entry} {i : Instr} : e.toInstr = i ↔ e = i.toEntry :=
  ⟨fun h => h ▸ (toEntry_toInstr e).symm, fun h => h ▸ toInstr_toEntry i⟩

theorem selector_lt (e : Entry) : e.selector < 8 := by
  have ha := e.a.hasFunction.toNat_lt
  have hb := e.b.hasFunction.toNat_lt
  have hc := e.c.hasFunction.toNat_lt
  unfold Entry.selector
  omega

/-- The selector is the number whose binary digits are the three flags. -/
theorem selector_injective : ∀ fa fb fc fa' fb' fc' : Bool,
    4 * fa.toNat + 2 * fb.toNat + fc.toNat = 4 * fa'.toNat + 2 * fb'.toNat + fc'.toNat →
      fa = fa' ∧ fb = fb' ∧ fc = fc' := by
  decide

/-- Among the instructions with an entry's operand values, its selector picks the one it stands for. -/
theorem selector_eq_iff {e : Entry} {i : Instr} (ha : i.toEntry.a.value = e.a.value)
    (hb : i.toEntry.b.value = e.b.value) (hc : i.toEntry.c.value = e.c.value) :
    e.selector = i.toEntry.selector ↔ e.toInstr = i := by
  rw [toInstr_eq_iff]
  refine ⟨fun h => ?_, fun h => congrArg Entry.selector h⟩
  obtain ⟨hfa, hfb, hfc⟩ := selector_injective _ _ _ _ _ _ h
  generalize i.toEntry = e' at *
  obtain ⟨⟨a, fa⟩, ⟨b, fb⟩, ⟨c, fc⟩⟩ := e
  obtain ⟨⟨a', fa'⟩, ⟨b', fb'⟩, ⟨c', fc'⟩⟩ := e'
  simp_all

/-- Settles O52: the two maps are inverse, and the flags are the selector's binary digits. -/
theorem selectorsNumberTheClasses : Obligations.SelectorsNumberTheClasses :=
  ⟨toInstr_toEntry, toEntry_toInstr, fun e => ⟨selector_lt e,
    selector_eq_iff (i := .subleq ..) rfl rfl rfl, selector_eq_iff (i := .halt ..) rfl rfl rfl,
    selector_eq_iff (i := .out ..) rfl rfl rfl, selector_eq_iff (i := .outHalt ..) rfl rfl rfl,
    selector_eq_iff (i := .inp ..) rfl rfl rfl, selector_eq_iff (i := .inpHalt ..) rfl rfl rfl,
    selector_eq_iff (i := .inpOut ..) rfl rfl rfl, selector_eq_iff (i := .inpOutHalt ..) rfl rfl rfl⟩⟩

/-- Settles O14: a function class hands its step only the operand values it uses. -/
theorem unusedOperandsAreIgnored : Obligations.UnusedOperandsAreIgnored :=
  fun _ _ _ _ _ _ _ => ⟨rfl, rfl, rfl, rfl, rfl, rfl, rfl⟩

/-! ### One address -/

section Address

variable (p : Params) (first : Bool) (value seg : Nat)

/-- Linked segments are read one by one, and their nibbles accumulated (30_encoding.md R50, R51). -/
theorem readAddress_linkedSegments {linked : List (Nat × Bool)} (h : ∀ x ∈ linked, x.1 < 16) (rest : List Bool) :
    readAddress p first value seg (linked.flatMap (fun x => segmentBits x.1 x.2 true) ++ rest) =
      readAddress p (first && linked.isEmpty) ((linked.map Prod.fst).foldl (fun v n => v * 16 + n) value)
        (seg + linked.length) rest := by
  induction linked generalizing first value seg with
  | nil => simp
  | cons x linked ih =>
    obtain ⟨hx, hlinked⟩ := List.forall_mem_cons.mp h
    rw [List.flatMap_cons, List.append_assoc, readAddress_linked p first value seg hx, ih _ _ _ hlinked]
    simp [Nat.add_comm, Nat.add_left_comm]

/-- The nibble of a segment that the stream ends in: its unread low data bits are 0 (30_encoding.md R55). -/
def paddedNibble (tail : List Bool) : Nat :=
  nibble (tail[0]?.getD false) (tail[1]?.getD false) (tail[2]?.getD false) (tail[3]?.getD false)

theorem nibble_lt : ∀ d3 d2 d1 d0 : Bool, nibble d3 d2 d1 d0 < 16 := by decide

theorem testBit_nibble : ∀ d3 d2 d1 d0 : Bool, (nibble d3 d2 d1 d0).testBit 3 = d3 ∧
    (nibble d3 d2 d1 d0).testBit 2 = d2 ∧ (nibble d3 d2 d1 d0).testBit 1 = d1 ∧
    (nibble d3 d2 d1 d0).testBit 0 = d0 := by
  decide

theorem testBit_paddedNibble (tail : List Bool) {k : Nat} (hk : k < 4) :
    (paddedNibble tail).testBit k = tail[3 - k]?.getD false := by
  obtain ⟨h3, h2, h1, h0⟩ :=
    testBit_nibble (tail[0]?.getD false) (tail[1]?.getD false) (tail[2]?.getD false) (tail[3]?.getD false)
  interval_cases k
  · exact h0
  · exact h1
  · exact h2
  · exact h3

/-- One to five bits before the end of the stream are a padded segment without a flag (30_encoding.md R55, R56). -/
theorem readAddress_cutSegment {tail : List Bool} (hlen : tail.length < 6) (hne : tail ≠ []) :
    readAddress p first value seg tail = .ok (⟨value * 16 + paddedNibble tail, false⟩, []) := by
  match tail with
  | [_] | [_, _] | [_, _, _] | [_, _, _, _] | [_, _, _, _, _] => rfl
  | _ :: _ :: _ :: _ :: _ :: _ :: _ =>
    simp only [List.length_cons] at hlen
    omega

/-- After a linked segment the stream may end (30_encoding.md R57). -/
theorem readAddress_danglingLink {seg : Nat} (h : seg ≠ 0) :
    readAddress p first value seg [] = .ok (⟨danglingValue p value, false⟩, []) := by
  rw [readAddress, if_neg h]

/-- The last `k + 1` base-16 digits of `v` are read as an address. -/
theorem readAddress_encodeDigits (f : Bool) (v k : Nat) (rest : List Bool) :
    readAddress p first value seg (encodeDigits f v (k + 1) ++ rest) =
      .ok (⟨value * 16 ^ (k + 1) + v % 16 ^ (k + 1), f⟩, rest) := by
  have hdigit : ∀ k, v / 16 ^ k % 16 < 16 := fun k => Nat.mod_lt _ (by decide)
  induction k generalizing first value seg with
  | zero =>
    have h := readAddress_last p first value seg (hdigit 0) f rest
    simpa [encodeDigits] using h
  | succ k ih =>
    have hvalue : (value * 16 + v / 16 ^ (k + 1) % 16) * 16 ^ (k + 1) + v % 16 ^ (k + 1) =
        value * 16 ^ (k + 2) + v % 16 ^ (k + 2) := by
      rw [Nat.mod_pow_succ (k := k + 1)]
      ring
    have hlink := readAddress_linked p first value seg (hdigit (k + 1)) (f && k + 1 == 0)
      (encodeDigits f v (k + 1) ++ rest)
    rw [encodeDigits, List.append_assoc]
    exact hlink.trans (by rw [ih, hvalue])

end Address

/-- Settles O53, over the linked segments. -/
theorem addressIsItsNibblesInBase16 : Obligations.AddressIsItsNibblesInBase16 := by
  intro p first linked lastNib s rest hlinked hlast
  rw [addressForm, List.append_assoc, readAddress_linkedSegments p first 0 0 hlinked, readAddress_last _ _ _ _ hlast,
    List.foldl_append]
  rfl

/-- Settles O54: the linked segments are read, and then the cut one or the dangling link. -/
theorem cutShortAddressIsPadded : Obligations.CutShortAddressIsPadded := by
  intro p first linked tail hlinked hlen hnil
  rw [readAddress_linkedSegments p first 0 0 hlinked]
  by_cases htail : tail = []
  · subst htail
    have hseg : 0 + linked.length ≠ 0 := by simpa using hnil rfl
    refine ⟨_, readAddress_danglingLink _ _ _ hseg, fun h => absurd rfl h, fun _ => ?_⟩
    cases hp : p.danglingLink <;> simp [danglingValue, accumulate, hp]
  · refine ⟨_, readAddress_cutSegment _ _ _ _ hlen htail, fun _ => ⟨paddedNibble tail, ?_, nibble_lt .., ?_⟩,
      fun h => absurd h htail⟩
    · exact fun k hk => testBit_paddedNibble tail hk
    · rw [List.foldl_append]
      rfl

/-! ### The canonical encoding of an address -/

/-- A value has no more base-16 digits than are written (30_encoding.md R67). -/
theorem lt_pow_digitCount (v : Nat) : v < 16 ^ digitCount v := by
  have hle : v.log2 + 1 ≤ 4 * digitCount v := by
    unfold digitCount
    omega
  calc v < 2 ^ (v.log2 + 1) := Nat.lt_log2_self
    _ ≤ 2 ^ (4 * digitCount v) := Nat.pow_le_pow_right (by decide) hle
    _ = 16 ^ digitCount v := Nat.pow_mul 2 4 _

/-- Fewer base-16 digits than are written do not hold the value. -/
theorem digitCount_le {v j : Nat} (hj : 1 ≤ j) (h : v < 16 ^ j) : digitCount v ≤ j := by
  have hlog : v.log2 < 4 * j := by
    by_cases hv : v = 0
    · rw [hv, Nat.log2_zero]
      omega
    · exact (Nat.log2_lt hv).mpr (Nat.pow_mul 2 4 j ▸ h)
  unfold digitCount
  omega

theorem length_encodeDigits (f : Bool) (v k : Nat) : (encodeDigits f v k).length = 6 * k := by
  induction k with
  | zero => rfl
  | succ k ih =>
    rw [encodeDigits, List.length_append, ih]
    simp only [segmentBits, List.length_cons, List.length_nil]
    omega

theorem length_encodeAddress (x : Address) : (encodeAddress x).length = 6 * digitCount x.value :=
  length_encodeDigits ..

/-- Settles O58: the segments are as many as the base-16 digits. -/
theorem canonicalAddressIsShortest : Obligations.CanonicalAddressIsShortest := fun x =>
  ⟨digitCount x.value, length_encodeAddress x, Nat.le_add_left .., lt_pow_digitCount _, fun _ => digitCount_le⟩

/-- Decoding the canonical encoding of an address gives the address back (30_encoding.md R67). -/
theorem readAddress_encodeAddress (p : Params) (first : Bool) (x : Address) (rest : List Bool) :
    readAddress p first 0 0 (encodeAddress x ++ rest) = .ok (x, rest) := by
  have hvalue : 0 * 16 ^ digitCount x.value + x.value % 16 ^ digitCount x.value = x.value := by
    rw [Nat.zero_mul, Nat.zero_add, Nat.mod_eq_of_lt (lt_pow_digitCount x.value)]
  have h := readAddress_encodeDigits p first 0 0 x.hasFunction x.value (x.value.log2 / 4) rest
  exact h.trans (congrArg (fun v => Loaded.ok (Address.mk v x.hasFunction, rest)) hvalue)

theorem encodeAddress_ne_nil (x : Address) : encodeAddress x ≠ [] :=
  List.ne_nil_of_length_pos (by rw [length_encodeAddress, digitCount]; omega)

/-! ### One round of `decode_program` -/

section Round

variable {p : Params} {fuel : Nat} {first : Bool} {done : List Entry} {bits r1 r2 r3 : List Bool} {a b c : Address}

/-- A stream that ends with an `a` adds nothing (30_encoding.md R59). -/
theorem decodeLoop_of_one (h : readAddress p first 0 0 bits = .ok (a, [])) :
    decodeLoop p (fuel + 1) first done bits = .ok done := by
  simp only [decodeLoop, h]

/-- A stream that ends with a `b` adds nothing (30_encoding.md R59). -/
theorem decodeLoop_of_two (ha : readAddress p first 0 0 bits = .ok (a, r1)) (h1 : r1 ≠ [])
    (hb : readAddress p false 0 0 r1 = .ok (b, [])) : decodeLoop p (fuel + 1) first done bits = .ok done := by
  obtain ⟨x, r, rfl⟩ := List.exists_cons_of_ne_nil h1
  simp only [decodeLoop, ha, hb]

/-- Three addresses are an instruction, if the IRF has room (30_encoding.md R58, R60). -/
theorem decodeLoop_of_three (ha : readAddress p first 0 0 bits = .ok (a, r1)) (h1 : r1 ≠ [])
    (hb : readAddress p false 0 0 r1 = .ok (b, r2)) (h2 : r2 ≠ []) (hc : readAddress p false 0 0 r2 = .ok (c, r3))
    (hroom : done.length ≠ p.irfCap) :
    decodeLoop p (fuel + 1) first done bits =
      if r3.isEmpty then .ok (done ++ [⟨a, b, c⟩]) else decodeLoop p fuel false (done ++ [⟨a, b, c⟩]) r3 := by
  obtain ⟨x, r, rfl⟩ := List.exists_cons_of_ne_nil h1
  obtain ⟨y, r', rfl⟩ := List.exists_cons_of_ne_nil h2
  simp only [decodeLoop, ha, hb, hc, if_neg hroom]

/-- Two addresses with something left take twelve bits. -/
theorem length_of_two (ha : readAddress p first 0 0 bits = .ok (a, r1)) (h1 : r1 ≠ [])
    (hb : readAddress p false 0 0 r1 = .ok (b, r2)) (h2 : r2 ≠ []) : r2.length + 12 ≤ bits.length := by
  have hla := (readAddress_rest ha).resolve_left h1
  have hlb := (readAddress_rest hb).resolve_left h2
  omega

end Round

/-! ### The canonical encoding of a program -/

theorem encodeEntry_append (e : Entry) (rest : List Bool) :
    encodeEntry e ++ rest = encodeAddress e.a ++ (encodeAddress e.b ++ (encodeAddress e.c ++ rest)) := by
  simp only [encodeEntry, List.append_assoc]

theorem encodeEntry_ne_nil (e : Entry) : encodeEntry e ≠ [] := by
  simp [encodeEntry, encodeAddress_ne_nil]

theorem encodeProgram_cons (e : Entry) (es : List Entry) :
    encodeProgram (e :: es) = encodeEntry e ++ encodeProgram es :=
  List.flatMap_cons

theorem length_le_encodeProgram (es : List Entry) : es.length ≤ (encodeProgram es).length := by
  induction es with
  | nil => exact Nat.zero_le _
  | cons e es ih =>
    have hpos := List.length_pos_of_ne_nil (encodeEntry_ne_nil e)
    rw [encodeProgram_cons, List.length_cons, List.length_append]
    omega

/-- One round reads one encoded instruction. -/
theorem decodeLoop_encodeEntry {p : Params} {done : List Entry} (hroom : done.length ≠ p.irfCap) (fuel : Nat)
    (first : Bool) (e : Entry) (rest : List Bool) :
    decodeLoop p (fuel + 1) first done (encodeEntry e ++ rest) =
      if rest.isEmpty then .ok (done ++ [e]) else decodeLoop p fuel false (done ++ [e]) rest := by
  rw [encodeEntry_append]
  exact decodeLoop_of_three (readAddress_encodeAddress ..) (by simp [encodeAddress_ne_nil])
    (readAddress_encodeAddress ..) (by simp [encodeAddress_ne_nil]) (readAddress_encodeAddress ..) hroom

/-- As many rounds as a program has instructions read its encoding; what follows is left for the next round. -/
theorem decodeLoop_encodeProgram {p : Params} {done : List Entry} {e : Entry} {es : List Entry}
    (hroom : done.length + (e :: es).length ≤ p.irfCap) (fuel : Nat) (first : Bool) (tail : List Bool) :
    decodeLoop p (fuel + (e :: es).length) first done (encodeProgram (e :: es) ++ tail) =
      if tail.isEmpty then .ok (done ++ e :: es) else decodeLoop p fuel false (done ++ e :: es) tail := by
  have hlt : done.length ≠ p.irfCap := by
    rw [List.length_cons] at hroom
    omega
  induction es generalizing done e first with
  | nil =>
    have h := decodeLoop_encodeEntry hlt fuel first e tail
    simpa [encodeProgram] using h
  | cons e' es ih =>
    have hroom' : (done ++ [e]).length + (e' :: es).length ≤ p.irfCap := by
      simp only [List.length_append, List.length_cons, List.length_nil] at hroom ⊢
      omega
    have hlt' : (done ++ [e]).length ≠ p.irfCap := by
      rw [List.length_cons] at hroom'
      omega
    have hrest : (encodeProgram (e' :: es) ++ tail).isEmpty = false := by
      simp [encodeProgram_cons, encodeEntry_ne_nil]
    rw [encodeProgram_cons, List.append_assoc]
    refine (decodeLoop_encodeEntry hlt _ first e _).trans ?_
    rw [hrest, if_neg (by decide)]
    exact (ih hroom' false hlt').trans (by simp)

/-- Decoding an encoded program that fits, and more bits after it. -/
theorem decodeProgram_encodeProgram {p : Params} {es : List Entry} (h : programWellFormed p es = true)
    (tail : List Bool) :
    ∃ fuel, decodeProgram p (encodeProgram es ++ tail) =
      if tail.isEmpty then .ok es else decodeLoop p (fuel + 1) false es tail := by
  obtain ⟨hne, hfits⟩ : es ≠ [] ∧ es.length ≤ p.irfCap := by
    simpa [programWellFormed, programFits] using h
  obtain ⟨e, es', rfl⟩ := List.exists_cons_of_ne_nil hne
  obtain ⟨fuel, hfuel⟩ :
      ∃ fuel, (encodeProgram (e :: es') ++ tail).length + 1 = fuel + 1 + (e :: es').length := by
    have hlen := length_le_encodeProgram (e :: es')
    refine ⟨(encodeProgram (e :: es') ++ tail).length - (e :: es').length, ?_⟩
    rw [List.length_append]
    omega
  have hroom : ([] : List Entry).length + (e :: es').length ≤ p.irfCap := by simpa using hfits
  refine ⟨fuel, ?_⟩
  rw [decodeProgram, hfuel, decodeLoop_encodeProgram hroom, List.nil_append]

/-- Settles O49: nothing follows the program. -/
theorem decodeInvertsEncode : Obligations.DecodeInvertsEncode := by
  intro p es h
  obtain ⟨fuel, hdecode⟩ := decodeProgram_encodeProgram h []
  simpa using hdecode

/-! ### A part of an instruction after a program -/

/-- What begins like a segment is cut within it, or begins with it. -/
theorem prefix_segmentBits_append {t more : List Bool} {n : Nat} {s l : Bool} (h : t <+: segmentBits n s l ++ more) :
    t.length < 6 ∨ ∃ u, t = segmentBits n s l ++ u ∧ u <+: more := by
  rcases Nat.lt_or_ge t.length 6 with hlt | hge
  · exact Or.inl hlt
  · obtain ⟨u, rfl⟩ := List.prefix_of_prefix_length_le (List.prefix_append _ more) h hge
    exact Or.inr ⟨u, rfl, (List.prefix_append_right_inj _).mp h⟩

/-- An address that is not a program's first ends within its last segment at the latest (30_encoding.md R55 to R57). -/
theorem readAddress_short (p : Params) (value seg : Nat) {t : List Bool} (h : t.length < 6) :
    ∃ x, readAddress p false value seg t = .ok (x, []) := by
  by_cases ht : t = []
  · subst ht
    by_cases hseg : seg = 0
    · exact ⟨⟨accumulate value 0, false⟩, by simp [readAddress, hseg]⟩
    · exact ⟨_, readAddress_danglingLink p false value hseg⟩
  · exact ⟨_, readAddress_cutSegment p false value seg h ht⟩

/-- Reading what begins like an address leaves at most what begins like the rest. -/
theorem readAddress_prefix (p : Params) (value seg : Nat) (linked : List (Nat × Bool)) (last : Nat) (f : Bool)
    {t more : List Bool} (h : t <+: addressForm linked last f ++ more) :
    ∃ x u, readAddress p false value seg t = .ok (x, u) ∧ u <+: more := by
  induction linked generalizing value seg t with
  | nil =>
    rcases prefix_segmentBits_append h with hlt | ⟨u, rfl, hu⟩
    · obtain ⟨x, hx⟩ := readAddress_short p value seg hlt
      exact ⟨x, [], hx, List.nil_prefix⟩
    · exact ⟨_, u, rfl, hu⟩
  | cons y linked ih =>
    rw [addressForm, List.flatMap_cons, List.append_assoc, List.append_assoc, ← List.append_assoc _ _ more] at h
    rcases prefix_segmentBits_append h with hlt | ⟨u, rfl, hu⟩
    · obtain ⟨x, hx⟩ := readAddress_short p value seg hlt
      exact ⟨x, [], hx, List.nil_prefix⟩
    · exact ih _ (seg + 1) hu

/-- A round on two addresses or the beginning of them adds nothing (30_encoding.md R59). -/
theorem decodeLoop_prefix (p : Params) (fuel : Nat) (done : List Entry) {linkedA linkedB : List (Nat × Bool)}
    {lastA lastB : Nat} {fa fb : Bool} {t : List Bool}
    (h : t <+: addressForm linkedA lastA fa ++ addressForm linkedB lastB fb) :
    decodeLoop p (fuel + 1) false done t = .ok done := by
  obtain ⟨a, u, ha, hu⟩ := readAddress_prefix p 0 0 linkedA lastA fa h
  by_cases hnil : u = []
  · subst hnil
    exact decodeLoop_of_one ha
  · rw [← List.append_nil (addressForm linkedB lastB fb)] at hu
    obtain ⟨b, v, hb, hv⟩ := readAddress_prefix p 0 0 linkedB lastB fb hu
    rw [List.prefix_nil.mp hv] at hb
    exact decodeLoop_of_two ha hnil hb

/-- Settles O57: the round after the program adds nothing. -/
theorem trailingPartIsDropped : Obligations.TrailingPartIsDropped := by
  intro p es linkedA linkedB lastA lastB fa fb tail h htail
  obtain ⟨fuel, hdecode⟩ := decodeProgram_encodeProgram h tail
  rw [hdecode, decodeLoop_prefix p fuel es htail, ite_self]

/-! ### Load errors and lengths -/

/-- The two errors of a program (30_encoding.md R54, R60): no bits at all at the start of LOAD, or bits for more
instructions than the IRF has room for. -/
theorem decodeLoop_error {p : Params} {fuel : Nat} {first : Bool} {done : List Entry} {bits : List Bool} {e : LoadError}
    (h : decodeLoop p fuel first done bits = .error e) :
    (e = .unexpectedEndOfBitstream ∧ bits = [] ∧ first = true) ∨
      (e = .programTooLong ∧ 18 * p.irfCap < 18 * done.length + bits.length) := by
  fun_induction decodeLoop p fuel first done bits
  case case2 ha =>
    obtain ⟨hbits, hfirst, _, rfl⟩ := readAddress_error ha
    cases h
    exact Or.inl ⟨rfl, hbits, hfirst⟩
  case case4 hb =>
    obtain ⟨_, hfirst, _⟩ := readAddress_error hb
    cases hfirst
  case case6 hc =>
    obtain ⟨_, hfirst, _⟩ := readAddress_error hc
    cases hfirst
  case case7 h1 ha _ _ h2 hb _ _ _ hfull =>
    have hlen := length_of_two ha h1 hb h2
    have hpos := List.length_pos_of_ne_nil h2
    cases h
    exact Or.inr ⟨rfl, by omega⟩
  case case9 h1 ha _ _ h2 hb _ _ hc _ h3 ih =>
    rcases ih h with ⟨_, _, hfirst⟩ | ⟨he, hlen⟩
    · cases hfirst
    · have hab := length_of_two ha h1 hb h2
      have hc := (readAddress_rest hc).resolve_left (by simpa using h3)
      rw [List.length_append, List.length_singleton] at hlen
      exact Or.inr ⟨he, by omega⟩
  all_goals cases h

/-- A program needs 18 bits for each instruction, the last of which the stream may cut by 5 (30_encoding.md R58,
R62). -/
theorem decodeLoop_bits {p : Params} {fuel : Nat} {first : Bool} {done es : List Entry} {bits : List Bool}
    (h : decodeLoop p fuel first done bits = .ok es) : 18 * es.length ≤ 18 * done.length + bits.length + 5 := by
  fun_induction decodeLoop p fuel first done bits
  case case8 h1 ha _ _ h2 hb _ _ _ _ _ =>
    have hlen := length_of_two ha h1 hb h2
    have hpos := List.length_pos_of_ne_nil h2
    cases h
    rw [List.length_append, List.length_singleton]
    omega
  case case9 h1 ha _ _ h2 hb _ _ hc _ h3 ih =>
    have hlen := ih h
    have hab := length_of_two ha h1 hb h2
    have hc := (readAddress_rest hc).resolve_left (by simpa using h3)
    rw [List.length_append, List.length_singleton] at hlen
    omega
  all_goals cases h
  all_goals omega

/-- Settles O56, from the lengths of the loop. -/
theorem tooLongNeedsEighteenBitsEach : Obligations.TooLongNeedsEighteenBitsEach := by
  intro p bits
  refine ⟨fun h => ?_, fun es h => ⟨decodeLoop_length (Nat.zero_le _) h, ?_⟩⟩
  · rcases decodeLoop_error h with ⟨he, _⟩ | ⟨_, hlen⟩
    · cases he
    · simpa using hlen
  · simpa using decodeLoop_bits h

/-- `UnexpectedEndOfBitstream` is the error of the empty bit sequence alone (30_encoding.md R54). -/
theorem decodeProgram_unexpectedEnd_iff (p : Params) (bits : List Bool) :
    decodeProgram p bits = .error .unexpectedEndOfBitstream ↔ bits = [] := by
  constructor
  · intro h
    rcases decodeLoop_error h with ⟨_, hbits, _⟩ | ⟨he, _⟩
    · exact hbits
    · cases he
  · rintro rfl
    rfl

/-- A bit sequence that is not empty and not too long for the IRF is a program (30_encoding.md R54, R60). -/
theorem decodeProgram_ok {p : Params} {bits : List Bool} (hne : bits ≠ []) (hlen : bits.length ≤ 18 * p.irfCap) :
    ∃ es, decodeProgram p bits = .ok es := by
  cases h : decodeProgram p bits with
  | ok es => exact ⟨es, rfl⟩
  | error e =>
    rcases decodeLoop_error h with ⟨_, hbits, _⟩ | ⟨_, hlong⟩
    · exact absurd hbits hne
    · rw [List.length_nil] at hlong
      omega

/-! ### From the source to bits -/

theorem mem_bitsToSource {b : List Bool} {ch : Char} (h : ch ∈ bitsToSource b) : ch = '0' ∨ ch = '1' := by
  obtain ⟨x, _, rfl⟩ := List.mem_map.mp h
  cases x
  · exact Or.inl rfl
  · exact Or.inr rfl

theorem isBit_eq_true {ch : Char} : isBit ch = true ↔ ch = '0' ∨ ch = '1' := by simp [isBit]

theorem isBit_eq_false {ch : Char} : isBit ch = false ↔ ch ≠ '0' ∧ ch ≠ '1' := by simp [isBit]

theorem map_bitsToSource (b : List Bool) : (bitsToSource b).map (fun ch => ch == '1') = b := by
  have hid : ∀ x : Bool, ((if x then '1' else '0') == '1') = x := by decide
  rw [bitsToSource, List.map_map]
  exact (List.map_congr_left fun x _ => hid x).trans (List.map_id b)

section Source

variable {p : Params} {source lead core more m : List Char} {b : List Bool}

/-- A run of whitespace goes wholly under `ALL`. -/
theorem filter_whitespace (h : ∀ ch ∈ lead, ch ∈ p.wsSet) : lead.filter (fun ch => !p.wsSet.contains ch) = [] :=
  List.filter_eq_nil_iff.mpr (by simpa using h)

theorem filter_noWhitespace (h : ∀ ch ∈ core, ch ∉ p.wsSet) :
    core.filter (fun ch => !p.wsSet.contains ch) = core :=
  List.filter_eq_self.mpr (by simpa using h)

/-- The bits before the first character that is none (30_encoding.md R47). -/
theorem bitSequence_of_strip (h : stripWhitespace p source = bitsToSource b ++ m)
    (hm : ∀ ch, m.head? = some ch → isBit ch = false) : bitSequence p source = b := by
  have hbits : ∀ ch ∈ bitsToSource b, isBit ch = true := fun ch hch => isBit_eq_true.mpr (mem_bitsToSource hch)
  have hstop : m.takeWhile isBit = [] := by
    cases m with
    | nil => rfl
    | cons ch m => simp [hm ch rfl]
  rw [bitSequence, h, List.takeWhile_append_of_pos hbits, hstop, List.append_nil, map_bitsToSource]

/-- Under `ALL`, a part without whitespace stays, and the whitespace of what follows it goes. -/
theorem stripWhitespace_all (hp : p.wsMode = .all) (hlead : ∀ ch ∈ lead, ch ∈ p.wsSet)
    (hcore : ∀ ch ∈ core, ch ∉ p.wsSet) :
    stripWhitespace p (lead ++ core ++ more) = core ++ more.filter (fun ch => !p.wsSet.contains ch) := by
  simp only [stripWhitespace, hp, List.filter_append, filter_whitespace hlead, filter_noWhitespace hcore,
    List.nil_append]

/-- What is dropped at the end stops at the last character of a part without whitespace. -/
theorem rdropWhile_append_of_core {f : Char → Bool} (hcore : ∀ ch ∈ core, ¬ f ch = true) (hne : core ≠ []) :
    (core ++ more).rdropWhile f = core ++ more.rdropWhile f := by
  induction more using List.reverseRecOn with
  | nil =>
    obtain ⟨init, last, rfl⟩ := List.eq_nil_or_concat core |>.resolve_left hne
    simpa using List.rdropWhile_concat_neg f init last (hcore last (by simp))
  | append_singleton more ch ih =>
    rw [← List.append_assoc, List.rdropWhile_concat, List.rdropWhile_concat, ih]
    split <;> simp

/-- Under `ENDS`, whitespace goes at the start, and at the end of what follows the first part without whitespace. -/
theorem stripWhitespace_ends (hp : p.wsMode = .ends) (hlead : ∀ ch ∈ lead, ch ∈ p.wsSet)
    (hcore : ∀ ch ∈ core, ch ∉ p.wsSet) (hne : core ≠ []) :
    stripWhitespace p (lead ++ core ++ more) = core ++ more.rdropWhile (fun ch => p.wsSet.contains ch) := by
  have hc : ∀ ch ∈ core, ¬ p.wsSet.contains ch = true := by simpa using hcore
  have hdrop : (lead ++ core ++ more).dropWhile (fun ch => p.wsSet.contains ch) = core ++ more := by
    rw [List.append_assoc, List.dropWhile_append_of_pos (by simpa using hlead)]
    obtain ⟨ch, rest, rfl⟩ := List.exists_cons_of_ne_nil hne
    exact List.dropWhile_cons_of_neg (hc ch List.mem_cons_self)
  have hends := rdropWhile_append_of_core (more := more) hc hne
  simp only [stripWhitespace, hp, hdrop]
  exact hends

/-- Under both modes whitespace goes at the start, a part without whitespace stays, and nothing but whitespace after it
goes altogether (30_encoding.md R47). -/
theorem stripWhitespace_core (p : Params) (more : List Char) (hlead : ∀ ch ∈ lead, ch ∈ p.wsSet)
    (hcore : ∀ ch ∈ core, ch ∉ p.wsSet) (hne : core ≠ []) :
    ∃ m, stripWhitespace p (lead ++ core ++ more) = core ++ m ∧ ((∀ ch ∈ more, ch ∈ p.wsSet) → m = []) := by
  cases hp : p.wsMode with
  | all => exact ⟨_, stripWhitespace_all hp hlead hcore, filter_whitespace⟩
  | ends =>
    exact ⟨_, stripWhitespace_ends hp hlead hcore hne,
      fun h => List.rdropWhile_eq_nil_iff.mpr (by simpa using h)⟩

end Source

/-- Settles O51: what stands between the whitespace is cut at the first character that is no bit. -/
theorem sourceIsStrippedAndCut : Obligations.SourceIsStrippedAndCut := by
  intro p lead trail more w other b1 b2 h0 h1 hlead htrail hw hother hother0 hother1 hb2
  have hbits (b : List Bool) : ∀ ch ∈ bitsToSource b, ch ∉ p.wsSet := by
    intro ch hch
    rcases mem_bitsToSource hch with rfl | rfl
    · exact h0
    · exact h1
  have hne {b : List Bool} (hb : b ≠ []) : bitsToSource b ≠ [] := by simpa [bitsToSource] using hb
  refine ⟨fun hp => ?_, fun hp hb1 => ?_, ?_, ?_⟩
  · refine bitSequence_of_strip (m := []) ?_ (by simp)
    have hw' : ∀ ch ∈ [w], ch ∈ p.wsSet := by simpa using hw
    rw [List.append_assoc, List.append_assoc (lead ++ bitsToSource b1), stripWhitespace_all hp hlead (hbits b1),
      List.filter_append, List.filter_append, filter_whitespace hw', filter_noWhitespace (hbits b2),
      filter_whitespace htrail]
    simp [bitsToSource]
  · have hwbit : isBit w = false := isBit_eq_false.mpr ⟨fun h => h0 (h ▸ hw), fun h => h1 (h ▸ hw)⟩
    have hstrip := stripWhitespace_ends (more := w :: (bitsToSource b2 ++ trail)) hp hlead (hbits b1) (hne hb1)
    have hprefix := List.rdropWhile_prefix (fun ch => p.wsSet.contains ch) (w :: (bitsToSource b2 ++ trail))
    rw [List.append_assoc, List.append_assoc (lead ++ bitsToSource b1)]
    refine bitSequence_of_strip hstrip fun ch hch => ?_
    obtain ⟨rest, hrest⟩ := List.head?_eq_some_iff.mp hch
    rw [hrest, List.cons_prefix_cons] at hprefix
    exact hprefix.1 ▸ hwbit
  · obtain ⟨m, hstrip, hm⟩ := stripWhitespace_core p trail hlead (hbits b2) (hne hb2)
    exact bitSequence_of_strip hstrip (by simp [hm htrail])
  · have hcore : ∀ ch ∈ bitsToSource b1 ++ [other], ch ∉ p.wsSet := by
      intro ch hch
      rcases List.mem_append.mp hch with hch | hch
      · exact hbits b1 ch hch
      · exact List.mem_singleton.mp hch ▸ hother
    obtain ⟨m, hstrip, _⟩ := stripWhitespace_core p more hlead hcore (by simp)
    rw [← List.append_assoc, List.append_assoc (bitsToSource b1)] at hstrip
    refine bitSequence_of_strip hstrip fun ch hch => ?_
    obtain rfl : other = ch := by simpa using hch
    exact isBit_eq_false.mpr ⟨hother0, hother1⟩

/-! ### LOAD -/

/-- On this hardware whitespace goes wherever it stands (30_encoding.md R47). -/
theorem stripWhitespace_hw (source : List Char) :
    stripWhitespace hw source = source.filter (fun ch => !hw.wsSet.contains ch) := rfl

/-- Settles O50: the source's bits are the encoding of a program of one instruction. -/
theorem loadedEncodingIsTheInstruction : Obligations.LoadedEncodingIsTheInstruction := by
  intro i source h
  have hbits : bitSequence hw source = encodeProgram [i.toEntry] := by
    refine bitSequence_of_strip (m := []) ?_ (by simp)
    rw [stripWhitespace_hw, h, encode]
    simp [encodeProgram]
  have hfits : programWellFormed hw [i.toEntry] = true := rfl
  exact ⟨i.toEntry, by rw [decodeSource, hbits, decodeInvertsEncode hw _ hfits], toInstr_toEntry i⟩

/-- The bit sequence is empty when the first character left is no bit (30_encoding.md R54). -/
theorem bitSequence_hw_eq_nil_iff (source : List Char) :
    bitSequence hw source = [] ↔
      ∀ ch, (source.filter (fun ch => !hw.wsSet.contains ch)).head? = some ch → ch ≠ '0' ∧ ch ≠ '1' := by
  rw [bitSequence, stripWhitespace_hw]
  cases source.filter (fun ch => !hw.wsSet.contains ch) with
  | nil => simp
  | cons ch rest => simp [List.takeWhile_cons, isBit_eq_false]

/-- LOAD of a source without bits fails (30_encoding.md R54). -/
theorem loadProgram_empty {p : Params} {source : List Char} (h : bitSequence p source = []) (s : State) :
    loadProgram p source s = { s.cleared with ls := .loadFailed, tr := .unexpectedEndOfBitstream } := by
  have herror : decodeSource p source = .error .unexpectedEndOfBitstream := (decodeProgram_unexpectedEnd_iff p _).mpr h
  rw [loadProgram, herror]
  rfl

/-- Settles O55: the error of the loop, and what LOAD makes of it. -/
theorem onlyAnEmptyStreamIsUnexpectedEnd : Obligations.OnlyAnEmptyStreamIsUnexpectedEnd := by
  refine ⟨decodeProgram_unexpectedEnd_iff, fun _ _ => decodeProgram_ok, bitSequence_hw_eq_nil_iff,
    fun s source h hidle => ?_⟩
  rw [hostCommand, hostLoad, if_pos hidle, loadProgram_empty h]
  exact ⟨rfl, rfl, rfl⟩

end Sys2Proof
end

section
/-! PROOFS. The family of 40_engine.md: the checks before a step (R73, R74), the function classes' phases (R77, R78), the
Subleq class (R79 to R81), and the run loop with its tests, STOP and RUN (R70, R71, R83 to R86). -/

namespace Sys2Proof.Machine

open Sys2Proof.Config

/-! ### Selectors and flags -/

/-- Selector 0 is the selector of the entry without a function flag (30_encoding.md R64). -/
theorem selector_eq_zero_iff (e : Entry) :
    e.selector = 0 ↔ e.a.hasFunction = false ∧ e.b.hasFunction = false ∧ e.c.hasFunction = false := by
  obtain ⟨⟨a, fa⟩, ⟨b, fb⟩, ⟨c, fc⟩⟩ := e
  cases fa <;> cases fb <;> cases fc <;> simp [Entry.selector]

/-- Outside Subleq no step looks at `c.value` (30_encoding.md R64). -/
theorem exec_withTarget {e : Entry} (h : e.selector ≠ 0) (v : Nat) (s : State) :
    exec ({ e with c := ⟨v, e.c.hasFunction⟩ } : Entry).toInstr s = exec e.toInstr s := by
  obtain ⟨⟨a, fa⟩, ⟨b, fb⟩, ⟨c, fc⟩⟩ := e
  cases fa <;> cases fb <;> cases fc
  case false.false.false => exact absurd rfl h
  all_goals rfl

/-- The operand `a` is used by an input phase and by Subleq. -/
theorem usesA_iff (e : Entry) : usesA e = true ↔ e.a.hasFunction = true ∨ e.selector = 0 := by simp [usesA]

/-- The operand `b` is used by an output phase and by Subleq. -/
theorem usesB_iff (e : Entry) : usesB e = true ↔ e.b.hasFunction = true ∨ e.selector = 0 := by simp [usesB]

section Steps

variable {p : Params} {e : Entry} {s t : State}

/-! ### The operand checks -/

/-- A step whose next state is a fault taken after its fetch is a precise fault. -/
theorem faultedStep_of_eq {o : Host.Outcome State Fault Refusal} {k : FaultKind}
    (h : o = .next (takeFault k (countFetch s))) : ∃ t, o = .next t ∧ FaultedStep k s t :=
  ⟨_, h, faultedStep_takeFault k s⟩

/-- The range check of an operand value, where the step uses it as a data address (40_engine.md R73). -/
def checkUsed (p : Params) (used : Bool) (v : Nat) (s : State) : Flow :=
  if used then checkAddress p v s else .go s

theorem checkUsed_go {used : Bool} {v : Nat} (h : used = true → v ≤ p.addrMax) (s : State) :
    checkUsed p used v s = .go s := by
  cases used with
  | false => rfl
  | true => exact checkAddress_of_le (h rfl) s

theorem checkUsed_stop {used : Bool} {v : Nat} (hu : used = true) (h : p.addrMax < v) (s : State) :
    checkUsed p used v s = .stop (takeFault .addressRange s) := by
  rw [checkUsed, if_pos hu, checkAddress_of_gt h]

/-- Every step begins, after its fetch, with the range checks of the operands it uses, `a` and then `b`. -/
theorem execWith_checksOperands (p : Params) (e : Entry) :
    ∃ rest : State → Flow, ∀ s, execWith p e.toInstr s =
      (((checkUsed p (usesA e) e.a.value (countFetch s)).andThen (checkUsed p (usesB e) e.b.value)).andThen
        rest).outcome := by
  obtain ⟨⟨a, fa⟩, ⟨b, fb⟩, ⟨c, fc⟩⟩ := e
  cases fa with
  | false =>
    cases fb with
    | false => cases fc with
      | false => exact ⟨subtractAndBranch p a b c, fun _ => rfl⟩
      | true => exact ⟨haltPhase, fun _ => rfl⟩
    | true => cases fc with
      | false => exact ⟨outFromOutput b, fun _ => rfl⟩
      | true => exact ⟨outHaltFromOutput b, fun _ => rfl⟩
  | true =>
    have hinput : ∀ (f : Flow) (k : State → Flow), ((f.andThen (checkRoom p a)).andThen k).outcome =
        ((f.andThen .go).andThen fun s => (checkRoom p a s).andThen k).outcome := fun f k => by cases f <;> rfl
    have hboth : ∀ (f : Flow) (k : State → Flow), ((f.andThen (checkRoom p a)).andThen k).outcome =
        (f.andThen fun s => (checkRoom p a s).andThen k).outcome := fun f k => by rw [Flow.andThen_assoc]
    cases fb with
    | false => cases fc with
      | false => exact ⟨_, fun s => hinput _ (inpFromInput p a)⟩
      | true => exact ⟨_, fun s => hinput _ (inpHaltFromInput p a)⟩
    | true => cases fc with
      | false => exact ⟨_, fun s => hboth _ (inpOutFromInput p a b)⟩
      | true => exact ⟨_, fun s => hboth _ (inpOutHaltFromInput p a b)⟩

/-- An operand the step uses that is above `ADDR_MAX` faults before any effect. -/
theorem execWith_addressRange (s : State)
    (h : usesA e = true ∧ p.addrMax < e.a.value ∨ usesB e = true ∧ p.addrMax < e.b.value) :
    execWith p e.toInstr s = .next (takeFault .addressRange (countFetch s)) := by
  obtain ⟨rest, hx⟩ := execWith_checksOperands p e
  rw [hx s]
  by_cases hA : usesA e = true ∧ p.addrMax < e.a.value
  · rw [checkUsed_stop hA.1 hA.2]
    rfl
  · have hle : usesA e = true → e.a.value ≤ p.addrMax := fun hu => Nat.le_of_not_lt fun hlt => hA ⟨hu, hlt⟩
    obtain ⟨hu, hlt⟩ := h.resolve_left hA
    rw [checkUsed_go hle, Flow.go_andThen, checkUsed_stop hu hlt]
    rfl

/-- The rest of a step from its input phase on, where the entry has one, does what that rest can do. -/
theorem fromInput_of_resumeInput {f : Flow} (hf : resumeInput p e.toInstr s = some f) :
    ∃ t, f.outcome = .next t ∧ FromInput p e s t := by
  rcases resumeInput_cases (p := p) e s with ⟨-, hn⟩ | ⟨-, g, t, hg, ht, hfrom⟩
  · exact absurd (hf.symm.trans hn) (by simp)
  · obtain rfl := Option.some.inj (hf.symm.trans hg)
    exact ⟨t, ht, hfrom⟩

/-- The rest of a step from its output phase on, where the entry has one, does what that rest can do. -/
theorem fromOutput_of_resumeOutput {f : Flow} (hf : resumeOutput e.toInstr s = some f) :
    ∃ t, f.outcome = .next t ∧ FromOutput e s t := by
  rcases resumeOutput_cases e s with ⟨-, hn⟩ | ⟨-, g, t, hg, ht, hfrom⟩
  · exact absurd (hf.symm.trans hn) (by simp)
  · obtain rfl := Option.some.inj (hf.symm.trans hg)
    exact ⟨t, ht, hfrom⟩

/-- A function class whose checks pass runs its phases. -/
theorem execWith_runsPhases (hsel : e.selector ≠ 0) (hp : PhasesInRange p e)
    (hroom : e.a.hasFunction = true → hasRoom p e.a.value s = true) :
    ∃ t, execWith p e.toInstr s = .next t ∧ FromInput p e (countFetch s) t := by
  obtain ⟨⟨a, fa⟩, ⟨b, fb⟩, ⟨c, fc⟩⟩ := e
  cases fa with
  | true =>
    obtain ⟨f, hf, hx⟩ := execWith_of_input rfl hp (hroom rfl)
    obtain ⟨t, ht, hfrom⟩ := fromInput_of_resumeInput hf
    exact ⟨t, hx.trans ht, hfrom⟩
  | false =>
    cases fb with
    | true =>
      obtain ⟨f, hf, hx⟩ := execWith_of_output (s := s) rfl rfl hp
      obtain ⟨t, ht, hfrom⟩ := fromOutput_of_resumeOutput hf
      exact ⟨t, hx.trans ht, fromInput_of_fromOutput hfrom⟩
    | false =>
      obtain rfl : fc = true := by simpa [selector_eq_zero_iff] using hsel
      exact ⟨_, rfl, Or.inr (Or.inr ⟨_, _, Or.inr ⟨rfl, rfl⟩, Or.inr ⟨rfl, rfl⟩, Or.inl ⟨rfl, rfl⟩⟩)⟩

/-- An input class whose range checks pass and that finds no store entry faults before its answer is taken
(40_engine.md R74). -/
theorem execWith_storeFull (ha : e.a.hasFunction = true) (hp : PhasesInRange p e)
    (hfull : hasRoom p e.a.value s = false) :
    execWith p e.toInstr s = .next (takeFault .storeFull (countFetch s)) := by
  have hsel : e.selector ≠ 0 := fun h => by simp [(selector_eq_zero_iff e).mp h] at ha
  obtain ⟨t, ht, hcases⟩ := execWith_cases (p := p) e s
  have hidle : t.seq = .idle := by
    by_contra hne
    exact absurd (hasRoom_of_execWith ht hne ha hp) (by simp [hfull])
  rcases hcases with ⟨k, rfl, -, hrange, hover⟩ | ⟨h0, -⟩ | ⟨-, -, hf⟩
  · cases k with
    | storeFull => exact ht
    | arithOverflow => exact absurd (hover rfl) hsel
    | addressRange =>
      rcases hrange rfl with ⟨-, hA⟩ | ⟨hu, hB⟩ | ⟨h0, -⟩
      · exact absurd (hp.1 ha) (by omega)
      · exact absurd (hp.2 (((usesB_iff e).mp hu).resolve_right hsel)) (by omega)
      · exact absurd h0 hsel
  · exact absurd h0 hsel
  · rcases (fromInput_frame hf).seq with ⟨-, hn, -⟩ | hq | ⟨hq, -⟩ | ⟨hq, -⟩
    · simp [ha] at hn
    all_goals simp [hidle] at hq

/-! ### The Subleq class -/

section Subleq

variable {a b c : Nat} {r : Int} (ha : a ≤ p.addrMax) (hb : b ≤ p.addrMax)
include ha hb

/-- With its operands in range a Subleq step is its arithmetic, branch and write-back. -/
theorem subleqWith_inRange : subleqWith p a b c s = (subtractAndBranch p a b c (countFetch s)).outcome := by
  rw [subleqWith, checkAddress_of_le ha, Flow.go_andThen, checkAddress_of_le hb, Flow.go_andThen]

/-- A difference that no cell holds and that is not wrapped faults, whatever the target and the store's room. -/
theorem subleqWith_overflows (hr : narrowResult p (exactResult a b s) = none) :
    subleqWith p a b c s = .next (takeFault .arithOverflow (countFetch s)) := by
  have hdiff : difference (memRead (countFetch s) a) (memRead (countFetch s) b) = exactResult a b s := rfl
  simp only [subleqWith_inRange ha hb, subtractAndBranch, hdiff, hr, Flow.stop_outcome]

variable (hr : narrowResult p (exactResult a b s) = some r)
include hr

/-- Once the result is a cell, a Subleq step is its target check, its capacity check and its write-back. -/
theorem subleqWith_narrowed : subleqWith p a b c s =
    (((checkTarget p c r (countFetch s)).andThen (checkRoom p b)).andThen (writeBack b c r)).outcome := by
  have hdiff : difference (memRead (countFetch s) a) (memRead (countFetch s) b) = exactResult a b s := rfl
  simp only [subleqWith_inRange ha hb, subtractAndBranch, hdiff, hr]

/-- A taken target above `ADDR_MAX` faults, whatever the store's room. -/
theorem subleqWith_targetOutOfRange (htaken : r ≤ 0) (hc : p.addrMax < c) :
    subleqWith p a b c s = .next (takeFault .addressRange (countFetch s)) := by
  rw [subleqWith_narrowed ha hb hr, checkTarget_stop (branchTaken_iff.mpr htaken) hc]
  rfl

variable (hc : r ≤ 0 → c ≤ p.addrMax)
include hc

/-- A result that finds no store entry faults. -/
theorem subleqWith_storeFull (hfull : hasRoom p b s = false) :
    subleqWith p a b c s = .next (takeFault .storeFull (countFetch s)) := by
  rw [subleqWith_narrowed ha hb hr, checkTarget_go (fun h => hc (branchTaken_iff.mp h)), Flow.go_andThen,
    checkRoom_of_full (by simpa using hfull)]
  rfl

/-- With every check passed, the result is written and the program counter goes where the branch says. -/
theorem subleqWith_completes (hroom : hasRoom p b s = true) : subleqWith p a b c s =
    .next { memWrite b r (countFetch s) with pc := branchPc c r s } := by
  rw [subleqWith_narrowed ha hb hr, checkTarget_go (fun h => hc (branchTaken_iff.mp h)), Flow.go_andThen,
    checkRoom_of_room (by simpa using hroom)]
  rfl

end Subleq

/-- What a Subleq step's write-back leaves of the store and the footprint. -/
theorem sameStoreBut_writeBack (h : Memory.wf s.mem) (b : Nat) (r i : Int) :
    SameStoreBut b s { memWrite b r (countFetch s) with pc := i } where
  cells _ hy := memRead_memWrite_other (s := countFetch s) h hy r
  footprint _ := Footprint.mem_insert

/-- The integer wrap of R80 is the model's. -/
theorem wrapResult_eq (p : Params) (r : Int) : wrapResult p r = (r - p.cellMin) % 2 ^ p.cellW + p.cellMin := by
  rw [wrapResult, Nat.cast_pow, Nat.cast_ofNat]

end Steps

/-- Settles O6: the checks pass, and the write-back is the step's whole effect. -/
theorem subleqSubtractsAndBranches : Obligations.SubleqSubtractsAndBranches := by
  intro a b c s hwf ha hb hfits hc hroom
  exact ⟨_, subleqWith_completes ha hb (narrowResult_of_fits hfits) hc (hasRoom_of_roomFor hroom),
    memRead_memWrite_same (s := countFetch s) hwf b _, sameStoreBut_writeBack hwf b _ _,
    fun h => branchPc_taken c h s, fun h => branchPc_notTaken c h s, rfl, rfl, rfl, rfl, rfl,
    ⟨rfl, rfl, rfl, rfl, rfl, rfl, rfl⟩⟩

/-- Settles O24: `narrowResult` decides, and then the Subleq step with its result. -/
theorem overflowFaultsOrWraps : Obligations.OverflowFaultsOrWraps := by
  refine ⟨fun p a b s hA hB => ?_, fun p a b c s ha hb hr hmode => ?_, fun a b c s ha hb hr => ?_,
    fun p a b c s w ha hb hr hmode hw => ?_⟩
  · obtain ⟨hAmin, hAmax⟩ := hA
    obtain ⟨hBmin, hBmax⟩ := hB
    unfold exactResult
    omega
  · exact faultedStep_of_eq (subleqWith_overflows ha hb (narrowResult_fault hmode hr))
  · exact faultedStep_of_eq (subleqWith_overflows ha hb (narrowResult_fault rfl hr))
  · have hnarrow : narrowResult p (exactResult a b s) = some w := by
      rw [narrowResult_wrap hmode hr, wrapResult_eq, hw]
    refine ⟨fun hwidth => isCell_narrowResult hwidth hnarrow,
      fun htaken hc => faultedStep_of_eq (subleqWith_targetOutOfRange ha hb hnarrow htaken hc),
      fun hwf hc hroom => ⟨_, subleqWith_completes ha hb hnarrow hc hroom,
        memRead_memWrite_same (s := countFetch s) hwf b w, sameStoreBut_writeBack hwf b w _,
        fun h => branchPc_taken c h s, fun h => branchPc_notTaken c h s, rfl, rfl⟩⟩

/-- Settles O25: the target check comes after the subtraction and before the capacity check, and is made of a taken
target only. -/
theorem targetIsCheckedOnlyWhenTaken : Obligations.TargetIsCheckedOnlyWhenTaken := by
  have hfault : ∀ (p : Params) (a b c : Nat) (s : State), a ≤ p.addrMax → b ≤ p.addrMax →
      IsCell p (exactResult a b s) → p.addrMax < c → exactResult a b s ≤ 0 →
      ∃ t, subleqWith p a b c s = .next t ∧ FaultedStep .addressRange s t := fun p a b c s ha hb hfits hc htaken =>
    faultedStep_of_eq (subleqWith_targetOutOfRange ha hb (narrowResult_of_fits hfits) htaken hc)
  refine ⟨hfault, fun a b c s ha hb hfits hc => ⟨hfault hw a b c s ha hb hfits hc, fun hpos hroom => ?_⟩⟩
  have hnotTaken : exactResult a b s ≤ 0 → c ≤ hw.addrMax := fun h => absurd hpos (Int.not_lt.mpr h)
  exact ⟨_, subleqWith_completes ha hb (narrowResult_of_fits hfits) hnotTaken (hasRoom_of_roomFor hroom), rfl,
    branchPc_notTaken c hpos s⟩

/-- Settles O26: no entry for the address written stops each input class and Subleq at its capacity check. -/
theorem fullStoreFaultsBeforeAnyEffect : Obligations.FullStoreFaultsBeforeAnyEffect := by
  intro p a b c s ha hb
  have hfull : ∀ x, x ∉ s.footprint → p.storeCap ≤ s.footprint.length → hasRoom p x s = false := by
    intro x hx hlen
    rw [← Bool.not_eq_true, hasRoom_iff]
    exact fun h => h.elim hx (Nat.not_lt.mpr hlen)
  have hinput : ∀ fb fc, a ∉ s.footprint → p.storeCap ≤ s.footprint.length →
      ∃ t, execWith p (Entry.toInstr ⟨⟨a, true⟩, ⟨b, fb⟩, ⟨c, fc⟩⟩) s = .next t ∧ FaultedStep .storeFull s t :=
    fun fb fc hx hlen => faultedStep_of_eq (execWith_storeFull rfl ⟨fun _ => ha, fun _ => hb⟩ (hfull a hx hlen))
  exact ⟨fun hx hlen => ⟨hinput false false hx hlen, hinput false true hx hlen, hinput true false hx hlen,
      hinput true true hx hlen⟩,
    fun hx hlen hfits hc =>
      faultedStep_of_eq (subleqWith_storeFull ha hb (narrowResult_of_fits hfits) hc (hfull b hx hlen))⟩

/-- Settles O23: the range checks come first, and a function class that passes them, with a store entry, runs its
phases. -/
theorem usedOperandsAreRangeChecked : Obligations.UsedOperandsAreRangeChecked := by
  intro e s
  rw [exec_toInstr]
  refine ⟨fun h => faultedStep_of_eq (execWith_addressRange s h), fun hA hB hsel hroom => ?_⟩
  have hp : PhasesInRange hw e :=
    ⟨fun ha => hA ((usesA_iff e).mpr (Or.inl ha)), fun hb => hB ((usesB_iff e).mpr (Or.inl hb))⟩
  obtain ⟨t, ht, hf⟩ := execWith_runsPhases hsel hp fun _ => hasRoom_of_roomFor hroom
  exact ⟨t, ht, (fromInput_frame hf).tr⟩

/-- Settles O28: only a data address in want of an entry raises `StoreFull`, and this hardware has an entry for each. -/
theorem storeFullCannotOccur : Obligations.StoreFullCannotOccur := by
  intro i s t hfoot htr h
  rw [exec_toEntry] at h
  rcases exec_inv h with ⟨k, rfl, hfull, -⟩ | ⟨-, -, -, r, -, -, -, rfl⟩ | ⟨-, -, hf⟩
  · cases k with
    | addressRange | arithOverflow => simp [FaultKind.reason]
    | storeFull =>
      obtain ⟨x, hx, hno⟩ := hfull rfl
      exact absurd (hasRoom_of_wf hardware_hasRoom hfoot hx) (by simp [hno])
  · exact htr
  · exact fun ht => htr ((fromInput_frame hf).tr.symm.trans ht)

/-! ### The phases of a completed step -/

section Phases

variable {p : Params} {e : Entry} {s t u v : State}

/-- What an input phase does not touch. -/
theorem InputDone.keeps (h : InputDone p e s u) :
    u.output = s.output ∧ u.tr = s.tr ∧ u.halted = s.halted ∧ u.pc = s.pc := by
  rcases h with ⟨-, x, rest, -, rfl⟩ | ⟨-, rfl⟩ <;> exact ⟨rfl, rfl, rfl, rfl⟩

/-- What an output phase does not touch. -/
theorem OutputDone.keeps (h : OutputDone e u v) :
    v.mem = u.mem ∧ v.input = u.input ∧ v.tr = u.tr ∧ v.halted = u.halted ∧ v.pc = u.pc := by
  rcases h with ⟨-, -, rfl⟩ | ⟨-, rfl⟩ <;> exact ⟨rfl, rfl, rfl, rfl, rfl⟩

/-- What the halt phase and the fall-through do not touch. -/
theorem StepDone.keeps (h : StepDone e v t) :
    t.mem = v.mem ∧ t.input = v.input ∧ t.output = v.output ∧ t.tr = v.tr ∧ t.seq = v.seq := by
  rcases h with ⟨-, rfl⟩ | ⟨-, rfl⟩ <;> exact ⟨rfl, rfl, rfl, rfl, rfl⟩

/-- An input phase takes one answer and stores it. -/
theorem InputDone.stores (h : InputDone p e s u) (hwf : Memory.wf s.mem) (ha : e.a.hasFunction = true) :
    ∃ x, s.input = x :: u.input ∧ memRead u e.a.value = inputValue p x := by
  rcases h with ⟨-, x, rest, hx, rfl⟩ | ⟨hn, -⟩
  · exact ⟨x, hx, Memory.read_write_same hwf _ _⟩
  · simp [ha] at hn

/-- Without an input phase nothing happens there. -/
theorem InputDone.eq_of_none (h : InputDone p e s u) (ha : e.a.hasFunction = false) : u = s := by
  rcases h with ⟨hy, -⟩ | ⟨-, hu⟩
  · simp [ha] at hy
  · exact hu

/-- An input phase writes its own cell only. -/
theorem InputDone.otherCells (h : InputDone p e s u) (hwf : Memory.wf s.mem) {x : Nat} (hx : x ≠ e.a.value) :
    memRead u x = memRead s x := by
  rcases h with ⟨-, y, rest, -, rfl⟩ | ⟨-, rfl⟩
  · exact Memory.read_write_other hwf hx _
  · rfl

/-- An output phase makes the low byte of its cell observable, and without one nothing is output. -/
theorem OutputDone.output (h : OutputDone e u v) :
    (e.b.hasFunction = true → v.output = u.output ++ [trunc8 (memRead u e.b.value)]) ∧
    (e.b.hasFunction = false → v.output = u.output) := by
  rcases h with ⟨hb, -, rfl⟩ | ⟨hb, rfl⟩ <;> simp [hb]

/-- The halt phase sets `halted` in place; without one the next index follows. -/
theorem StepDone.ends (h : StepDone e v t) :
    (e.c.hasFunction = true → t.halted = true ∧ t.pc = v.pc) ∧
    (e.c.hasFunction = false → t.halted = v.halted ∧ t.pc = v.pc + 1) := by
  rcases h with ⟨hc, rfl⟩ | ⟨hc, rfl⟩ <;> simp [hc]

/-- What a function class's step that completed has done, phase by phase (40_engine.md R75 to R78). -/
structure PhasesDone (p : Params) (e : Entry) (s t : State) : Prop where
  tr           : t.tr = s.tr
  stored       : e.a.hasFunction = true → ∃ x, s.input = x :: t.input ∧ memRead t e.a.value = inputValue p x
  inputKept    : e.a.hasFunction = false → t.input = s.input
  byteOutput   : e.b.hasFunction = true → t.output = s.output ++ [trunc8 (memRead t e.b.value)]
  outputKept   : e.b.hasFunction = false → t.output = s.output
  otherCells   : ∀ x, x ≠ e.a.value → memRead t x = memRead s x
  cellsKept    : e.a.hasFunction = false → ∀ x, memRead t x = memRead s x
  halts        : e.c.hasFunction = true → t.halted = true ∧ t.pc = s.pc
  fallsThrough : e.c.hasFunction = false → t.pc = s.pc + 1 ∧ t.halted = s.halted

theorem phasesDone_of_parts (hwf : Memory.wf s.mem) (hu : InputDone p e s u) (hv : OutputDone e u v)
    (hd : StepDone e v t) : PhasesDone p e s t := by
  obtain ⟨huOut, huTr, huHalted, huPc⟩ := hu.keeps
  obtain ⟨hvMem, hvIn, hvTr, hvHalted, hvPc⟩ := hv.keeps
  obtain ⟨htMem, htIn, htOut, htTr, -⟩ := hd.keeps
  have hcells : ∀ x, memRead t x = memRead u x := memRead_congr (htMem.trans hvMem)
  have hin : t.input = u.input := htIn.trans hvIn
  exact {
    tr := htTr.trans (hvTr.trans huTr)
    stored := fun ha => by simpa only [hcells, hin] using hu.stores hwf ha
    inputKept := fun ha => hin.trans (congrArg State.input (hu.eq_of_none ha))
    byteOutput := fun hb => by rw [htOut, hv.output.1 hb, huOut, hcells]
    outputKept := fun hb => by rw [htOut, hv.output.2 hb, huOut]
    otherCells := fun x hx => (hcells x).trans (hu.otherCells hwf hx)
    cellsKept := fun ha x => (hcells x).trans (by rw [hu.eq_of_none ha])
    halts := fun hc => (hd.ends.1 hc).imp_right fun h => h.trans (hvPc.trans huPc)
    fallsThrough := fun hc => ⟨by rw [(hd.ends.2 hc).2, hvPc, huPc], by rw [(hd.ends.2 hc).1, hvHalted, huHalted]⟩ }

/-- A function class's step that leaves `SEQ = LOOP` has neither faulted nor waited: all its phases are done. -/
theorem exec_phasesDone (hsel : e.selector ≠ 0) (hwf : Memory.wf s.mem) (h : exec e.toInstr s = .next t)
    (hseq : t.seq = .loop) : PhasesDone hw e (countFetch s) t := by
  rcases exec_inv h with ⟨k, rfl, -⟩ | ⟨h0, -⟩ | ⟨-, -, ⟨-, -, rfl⟩ | ⟨u, -, -, -, rfl⟩ | ⟨u, v, hu, hv, hd⟩⟩
  · cases hseq
  · exact absurd h0 hsel
  · cases hseq
  · cases hseq
  · exact phasesDone_of_parts hwf hu hv hd

end Phases

/-- Settles O15, from what a completed step of a function class has done. -/
theorem haltPhaseStopsInPlace : Obligations.HaltPhaseStopsInPlace := by
  intro e s t hc _ hwf h hseq
  have hsel : e.selector ≠ 0 := fun h0 => by simp [(selector_eq_zero_iff e).mp h0] at hc
  have done := exec_phasesDone hsel hwf h hseq
  obtain ⟨hhalt, hpc⟩ := done.halts hc
  refine ⟨hhalt, hpc, done.tr, fun ha => ?_, done.inputKept, fun hb => ?_, done.outputKept, done.otherCells,
    done.cellsKept, fun v => ?_⟩
  · obtain ⟨x, hx, hread⟩ := done.stored ha
    exact ⟨x, hx, hread.trans (inputValue_hw x)⟩
  · exact trunc8_eq_lowByte (memRead t e.b.value) ▸ done.byteOutput hb
  · exact hc ▸ (exec_withTarget hsel v s).trans h

/-- Settles O16, from what a completed step of a function class has done. -/
theorem functionClassesFallThrough : Obligations.FunctionClassesFallThrough := by
  intro e s t hab hc hwf h hseq
  have hsel : e.selector ≠ 0 := fun h0 => by simp [(selector_eq_zero_iff e).mp h0] at hab
  have done := exec_phasesDone hsel hwf h hseq
  obtain ⟨hpc, hhalt⟩ := done.fallsThrough hc
  exact ⟨hpc, hhalt, done.otherCells, done.cellsKept, fun v => hc ▸ (exec_withTarget hsel v s).trans h⟩

/-! ### The run loop's tests -/

section Tests

variable {p : Params} {s t : State}

/-- A reason that stands in `TR` ends the run before any other test (60_exceptions.md R102). -/
theorem loopTest_terminated (htr : s.tr ≠ .none) : loopTest p s = some (loopExit s.tr s) := if_pos htr

variable (htr : s.tr = .none)
include htr

theorem loopTest_halted (hh : s.halted = true) : loopTest p s = some (loopExit .haltInstruction s) := by
  rw [loopTest, if_neg (not_not.mpr htr), if_pos hh]
  rfl

variable (hh : s.halted = false)
include hh

theorem loopTest_pcOutOfRange (hpc : ¬ (0 ≤ s.pc ∧ s.pc < s.irf.length)) :
    loopTest p s = some (loopExit .programCounterOutOfRange s) := by
  have hout : pcInRange s = false := by rwa [← Bool.not_eq_true, pcInRange_iff]
  simp only [loopTest, htr, hh, hout]
  rfl

variable (hpc : 0 ≤ s.pc ∧ s.pc < s.irf.length)
include hpc

theorem loopTest_capExceeded (hcap : p.cap ≤ s.instructionCount) :
    loopTest p s = some (loopExit .instructionCapExceeded s) := by
  simp only [loopTest, htr, hh, pcInRange_iff.mpr hpc, hcap]
  rfl

/-- A pending STOP pauses a run that no test ends. -/
theorem loopTest_paused (hcount : s.instructionCount < p.cap) (hstop : s.stopReq = true) :
    loopTest p s = some (loopExit .none s) := by
  simp only [loopTest, htr, hh, pcInRange_iff.mpr hpc, Nat.not_le.mpr hcount, hstop]
  simp [leaveLoop, loopExit, htr]

end Tests

/-- A test that ends the run is the machine's step, when the core has the turn. -/
theorem step_exits {s t : State} (hscript : s.script = []) (hseq : s.seq = .loop) (h : loopTest hw s = some t) :
    step s = .next t := (step_core hscript).trans (coreTurn_leaves hseq h)

/-- Settles O29, test by test. -/
theorem runLoopTestsInOrder : Obligations.RunLoopTestsInOrder :=
  ⟨⟨rfl, rfl, rfl⟩, fun _ hscript hseq => ⟨
    fun htr => step_exits hscript hseq (loopTest_terminated htr),
    fun htr hh => step_exits hscript hseq (loopTest_halted htr hh),
    fun htr hh hpc => step_exits hscript hseq (loopTest_pcOutOfRange htr hh hpc),
    fun htr hh hlow hhigh hcap => step_exits hscript hseq (loopTest_capExceeded htr hh ⟨hlow, hhigh⟩ hcap),
    fun htr hh hlow hhigh hcount hstop =>
      step_exits hscript hseq (loopTest_paused htr hh ⟨hlow, hhigh⟩ hcount hstop)⟩⟩

/-- Settles O4: when no test of the run loop holds, the core's turn is the fetched entry's step. -/
theorem stepRunsTheFetchedInstruction : Obligations.StepRunsTheFetchedInstruction := by
  intro s e hissued hentry
  have hfetch : fetchEntry s = some e :=
    fetchEntry_some_iff.mpr ⟨pcInRange_iff.mpr ⟨hissued.pcLow, hissued.pcHigh⟩, hentry⟩
  refine ⟨fun hscript => (step_core hscript).trans (coreTurn_issues hissued hfetch), fun rest hscript => ?_⟩
  exact (step_coreEvent hscript).trans (coreTurn_issues (s := { s with script := rest }) { hissued with } hfetch)

/-! ### RUN and STOP at a step boundary -/

section HostTurns

variable {s : State} {r : List Event}

/-- A RUN of a loaded, idle core enters the run loop. -/
theorem step_run (h : s.script = .host .run :: r) (hls : s.ls = .loaded) (hseq : s.seq = .idle) :
    step s = .next { s with script := r, seq := .loop } := by
  rw [step_host h, hostCommand, hostRun, if_pos ⟨hls, hseq⟩]

theorem step_run_refused (h : s.script = .host .run :: r) (hno : ¬ (s.ls = .loaded ∧ s.seq = .idle)) :
    step s = .next (refuseCommand { s with script := r }) := by
  rw [step_host h, hostCommand, hostRun, if_neg hno]

/-- A STOP is latched while the run loop is active. -/
theorem step_stop (h : s.script = .host .stop :: r) (hseq : s.seq ≠ .idle) :
    step s = .next { s with script := r, stopReq := true } := by
  rw [step_host h, hostCommand, hostStop, if_neg hseq]

end HostTurns

/-- Settles O30: what the host's events and the run loop's tests make of each script. -/
theorem runAgainResumesOrStops : Obligations.RunAgainResumesOrStops := by
  intro s
  refine ⟨fun hls hstop hseq hscript htr => ?_, fun hls hstop hseq hscript htr hh hlow hhigh hcount => ?_,
    fun hno rest hscript => ?_⟩
  · have hexit := step_exits (s := { s with script := [], seq := .loop }) rfl rfl (loopTest_terminated htr)
    rw [run_succ (step_run hscript hls hseq), run_succ hexit, run_zero]
    simp only [loopExit, hstop, hseq]
  · have hpause : step { s with script := [.core, .host .run], stopReq := true } =
        .next (loopExit .none { s with script := [.host .run], stopReq := true }) :=
      (step_coreEvent rfl).trans (coreTurn_leaves hseq (loopTest_paused htr hh ⟨hlow, hhigh⟩ hcount rfl))
    have hresume := step_run (s := loopExit .none { s with script := [.host .run], stopReq := true }) rfl hls rfl
    rw [run_succ (step_stop hscript (by simp [hseq])), run_succ hpause, run_succ hresume, run_zero]
    simp only [loopExit, hstop, hseq, htr]
  · exact step_run_refused hscript fun hok => hno.elim (fun h => h hok.1) fun h => h hok.2

/-! ### A halted run -/

/-- Settles O37, over what a turn can be: no test lets a halted run have a step, and the invariant rules out one in
progress. -/
theorem haltedRunExecutesNothing : Obligations.HaltedRunExecutesNothing := by
  intro s t hinv hhalted hload h
  cases step_inv h with
  | core r _ ht =>
    cases coreTurn_inv ht with
    | idle _ ht => exact ht ▸ ⟨rfl, rfl, rfl, rfl, rfl, hhalted, List.prefix_rfl⟩
    | leaves _ ht =>
      obtain ⟨reason, rfl, -⟩ := loopTest_exit ht
      exact ⟨rfl, rfl, rfl, rfl, rfl, hhalted, List.prefix_rfl⟩
    | steps _ _ hrunning => exact absurd (hhalted.symm.trans hrunning) (by decide)
    | resumesInput hseq =>
      obtain ⟨-, hrunning, -⟩ := hinv.waitIn hseq
      exact absurd (hhalted.symm.trans hrunning) (by decide)
    | resumesOutput hseq =>
      obtain ⟨-, hrunning, -⟩ := hinv.waitOut hseq
      exact absurd (hhalted.symm.trans hrunning) (by decide)
  | host cmd r hr ht =>
    obtain ⟨-, -, hmem, hfoot, hpc, hh, hcount, -, hout, hin, -⟩ := hostCommand_frame (p := hw) hload hr
    exact ht ▸ ⟨hmem, hfoot, hpc, hcount, hout, hh.trans hhalted, by rw [hin]⟩
  | answer x r _ ht => exact ht ▸ ⟨rfl, rfl, rfl, rfl, rfl, hhalted, List.prefix_append _ _⟩
  | sink b r _ ht => exact ht ▸ ⟨rfl, rfl, rfl, rfl, rfl, hhalted, List.prefix_rfl⟩

/-! ### Runs that are answered end -/

section AnsweredRuns

variable {p : Params} {e : Entry} {s t u v : State}

theorem InputDone.seq_loop (h : InputDone p e s u) (hs : e.a.hasFunction = true ∨ s.seq = .loop) : u.seq = .loop := by
  rcases h with ⟨-, x, rest, -, rfl⟩ | ⟨ha, rfl⟩
  · rfl
  · exact hs.resolve_left (by simp [ha])

theorem OutputDone.seq_loop (h : OutputDone e u v) (hs : e.b.hasFunction = true ∨ u.seq = .loop) : v.seq = .loop := by
  rcases h with ⟨-, -, rfl⟩ | ⟨hb, rfl⟩
  · rfl
  · exact hs.resolve_left (by simp [hb])

/-- With an acknowledgement there, the rest of a step from its output phase on completes. -/
theorem FromOutput.seq_loop (h : FromOutput e s t) (hr : s.sinkReady = true)
    (hs : e.b.hasFunction = true ∨ s.seq = .loop) : t.seq = .loop := by
  rcases h with ⟨-, hn, -⟩ | ⟨v, hv, hd⟩
  · simp [hr] at hn
  · obtain ⟨-, -, -, -, hseq⟩ := hd.keeps
    exact hseq.trans (hv.seq_loop hs)

/-- With an answer and an acknowledgement there, the rest of a step from its input phase on completes. -/
theorem FromInput.seq_loop (h : FromInput p e s t) (hi : s.input ≠ []) (hr : s.sinkReady = true)
    (hs : e.a.hasFunction = true ∨ s.seq = .loop) : t.seq = .loop := by
  rcases h with ⟨-, hn, -⟩ | ⟨u, -, -, hn, -⟩ | ⟨u, v, hu, hv, hd⟩
  · exact absurd hn hi
  · simp [hr] at hn
  · obtain ⟨-, -, -, -, hseq⟩ := hd.keeps
    exact hseq.trans (hv.seq_loop (Or.inr (hu.seq_loop hs)))

/-- A run that nothing interrupts: it is in the loop, no STOP is pending, nothing is scheduled outside, and the sink
acknowledges. -/
structure Uninterrupted (s : State) : Prop where
  seq       : s.seq = .loop
  stopReq   : s.stopReq = false
  script    : s.script = []
  sinkReady : s.sinkReady = true

/-- The run has ended with a termination reason. -/
def RunEnded (t : State) : Prop := t.seq = .idle ∧ t.tr ≠ .none

/-- With an answer there, a step of an uninterrupted run faults, which ends the run, or completes, having taken at most
that answer. -/
theorem Uninterrupted.exec_ends_or_goes_on (hs : Uninterrupted s) (hi : s.input ≠ [])
    (h : exec e.toInstr s = .next t) :
    RunEnded t ∨ Uninterrupted t ∧ t.instructionCount = s.instructionCount + 1 ∧
      s.input.length ≤ t.input.length + 1 := by
  rcases exec_inv h with ⟨k, rfl, -⟩ | ⟨-, -, -, r, -, -, -, rfl⟩ | ⟨-, -, hf⟩
  · exact Or.inl ⟨rfl, by cases k <;> simp [FaultKind.reason]⟩
  · exact Or.inr ⟨⟨hs.seq, hs.stopReq, hs.script, hs.sinkReady⟩, rfl, Nat.le_succ _⟩
  · have frame := fromInput_frame hf
    refine Or.inr ⟨⟨hf.seq_loop hi hs.sinkReady (Or.inr hs.seq), frame.stopReq.trans hs.stopReq,
      frame.script.trans hs.script, frame.sinkReady.trans hs.sinkReady⟩, frame.count, ?_⟩
    rcases frame.input with hin | ⟨x, hin⟩
    · exact hin ▸ Nat.le_succ _
    · exact Nat.le_of_eq (congrArg List.length hin)

/-- A turn of an uninterrupted run ends the run, or it is a step under the cap that completes. -/
theorem Uninterrupted.step_ends_or_goes_on (hs : Uninterrupted s) (hi : s.instructionCount < hw.cap → s.input ≠ []) :
    ∃ t, step s = .next t ∧ (RunEnded t ∨ s.instructionCount < hw.cap ∧ Uninterrupted t ∧
      t.instructionCount = s.instructionCount + 1 ∧ s.input.length ≤ t.input.length + 1) := by
  rcases loopTest_cases (p := hw) s with ⟨htr, hx⟩ | ⟨-, -, hx⟩ | ⟨-, -, -, hx⟩ | ⟨-, -, -, -, hx⟩ |
    ⟨-, -, -, -, hstop, -⟩ | ⟨-, -, hpc, hcount, -, hx⟩
  · exact ⟨_, step_exits hs.script hs.seq hx, Or.inl ⟨rfl, htr⟩⟩
  · exact ⟨_, step_exits hs.script hs.seq hx, Or.inl ⟨rfl, by simp⟩⟩
  · exact ⟨_, step_exits hs.script hs.seq hx, Or.inl ⟨rfl, by simp⟩⟩
  · exact ⟨_, step_exits hs.script hs.seq hx, Or.inl ⟨rfl, by simp⟩⟩
  · exact absurd (hs.stopReq.symm.trans hstop) (by decide)
  · obtain ⟨e, he⟩ := fetchEntry_isSome hpc
    obtain ⟨t, ht⟩ := exec_next e.toInstr s
    have hturn : step s = exec e.toInstr s := by
      simp only [step_core hs.script, coreTurn, hs.seq, loopTurn, hx, he]
    exact ⟨t, hturn.trans ht, (hs.exec_ends_or_goes_on (hi hcount) ht).imp_right fun h => ⟨hcount, h⟩⟩

/-- An uninterrupted run with an answer for each step that the cap leaves ends within those steps and one last test. -/
theorem Uninterrupted.run_ends {n : Nat} (hs : Uninterrupted s) (hn : hw.cap - s.instructionCount = n)
    (hi : n ≤ s.input.length) : ∃ k t, k ≤ n + 1 ∧ Host.Core.run Sys2Proof.core k s = .next t ∧ RunEnded t := by
  induction n generalizing s with
  | zero =>
    obtain ⟨t, ht, hend | ⟨hcount, -⟩⟩ := hs.step_ends_or_goes_on fun hcount => by omega
    · exact ⟨1, t, Nat.le_refl 1, by rw [run_succ ht, run_zero], hend⟩
    · omega
  | succ n ih =>
    have hne : s.input ≠ [] := List.ne_nil_of_length_pos (by omega)
    obtain ⟨t, ht, hend | ⟨-, hs', hcount, hlen⟩⟩ := hs.step_ends_or_goes_on fun _ => hne
    · exact ⟨1, t, by omega, by rw [run_succ ht, run_zero], hend⟩
    · obtain ⟨k, u, hk, hrun, hend⟩ := ih hs' (by omega) (by omega)
      exact ⟨k + 1, u, by omega, (run_succ ht k).trans hrun, hend⟩

end AnsweredRuns

/-- Settles O45, from an uninterrupted run's end within the steps the cap leaves. -/
theorem runEndsWithinTheCap : Obligations.RunEndsWithinTheCap :=
  fun _ hseq hstop hscript hready hi => Uninterrupted.run_ends ⟨hseq, hstop, hscript, hready⟩ rfl hi

/-! ### STOP while a step waits -/

section Stops

variable {s t : State}

/-- A step that waited goes on the same whatever the STOP latch holds, if the rest of every step does. -/
theorem resumeStep_withStop {rest : Instr → State → Option Flow} {stop : Bool}
    (hrest : ∀ i, rest i { s with stopReq := stop } = (rest i s).map (Flow.withStop stop))
    (h : resumeStep rest s = .next t) :
    resumeStep rest { s with stopReq := stop } = .next { t with stopReq := stop } := by
  have hfetch : fetchEntry { s with stopReq := stop } = fetchEntry s := fetchEntry_congr rfl rfl
  unfold resumeStep at h ⊢
  rw [hfetch]
  cases he : fetchEntry s with
  | none => simp [he] at h
  | some e =>
    cases hf : rest e.toInstr s with
    | none => simp [he, hf] at h
    | some f =>
      simp only [he, hf] at h
      simp only [hrest, hf, Option.map_some]
      exact Flow.outcome_withStop h stop

/-- A waiting step, answered or not, does the same whatever the STOP latch holds: neither rest of a step reads it or
writes it (40_engine.md R85). -/
theorem step_withStop (h : step s = .next t) (hseq : s.seq = .waitIn ∨ s.seq = .waitOut) (hscript : s.script = [])
    (stop : Bool) : step { s with stopReq := stop } = .next { t with stopReq := stop } := by
  rw [step_core hscript] at h
  rw [step_core (s := { s with stopReq := stop }) hscript]
  rcases hseq with hseq | hseq <;> simp only [coreTurn, hseq] at h ⊢
  · exact resumeStep_withStop (fun i => resumeInput_withStop i s stop) h
  · exact resumeStep_withStop (fun i => resumeOutput_withStop i s stop) h

end Stops

/-- Settles O34, the statement of `step_withStop`. -/
theorem stopNeverDisturbsAWaitingStep : Obligations.StopNeverDisturbsAWaitingStep :=
  fun _ _ stop hseq hscript h => step_withStop h hseq hscript stop

/-! ### A STOP during a waiting step -/

section Held

variable {e : Entry} {s t u : State} {r : List Event}

theorem step_answer {x : InAnswer} (h : s.script = .inputAnswer x :: r) :
    step s = .next { s with script := r, input := s.input ++ [x] } := by
  simp only [step, machineTurn, h, eventTurn]

theorem step_sink {ready : Bool} (h : s.script = .sinkReady ready :: r) :
    step s = .next { s with script := r, sinkReady := ready } := by
  simp only [step, machineTurn, h, eventTurn]

/-- A step that waited for input ends, once answered, as the step that had the answer at once (60_exceptions.md R111). -/
theorem exec_resumesInput (he : fetchEntry s = some e) (ha : e.a.hasFunction = true)
    (h : exec e.toInstr s = .next t) (ht : t.seq = .waitIn) (x : InAnswer) (more : List InAnswer) :
    ∃ u, step { t with script := [], input := x :: more } = .next u ∧
      exec e.toInstr { s with script := [], input := x :: more } = .next u ∧
      FromInput hw e { t with script := [], input := x :: more } u := by
  rw [exec_toInstr] at h ⊢
  obtain ⟨hp, -, rfl⟩ := execWith_waitIn h ht ha
  have hroom := hasRoom_of_execWith h (by simp) ha hp
  let s' : State := { s with script := [], input := x :: more }
  obtain ⟨f, hf, hx⟩ := execWith_of_input (s := s') ha hp hroom
  rw [← resumeInput_seq .waitIn rfl] at hf
  obtain ⟨u, hu, hfrom⟩ := fromInput_of_resumeInput hf
  have hturn : step { countFetch s' with seq := .waitIn } = f.outcome :=
    (step_core rfl).trans (coreTurn_waitIn rfl he hf)
  exact ⟨u, hturn.trans hu, hx.trans hu, hfrom⟩

/-- A step ends in `WAIT_OUT` with its checks passed and its input phase, if it has one, done. -/
theorem exec_waitOut (hb : e.b.hasFunction = true) (h : exec e.toInstr s = .next t) (ht : t.seq = .waitOut) :
    PhasesInRange hw e ∧ ∃ u, InputDone hw e (countFetch s) u ∧ t = { u with seq := .waitOut } := by
  rcases exec_inv h with ⟨k, rfl, -⟩ | ⟨h0, -⟩ | ⟨-, hp, ⟨-, -, rfl⟩ | ⟨u, hu, -, -, ht⟩ | ⟨u, v, hu, hv, hd⟩⟩
  · cases ht
  · simp [(selector_eq_zero_iff e).mp h0] at hb
  · cases ht
  · exact ⟨hp, u, hu, ht⟩
  · obtain ⟨-, -, -, -, hseq⟩ := hd.keeps
    rw [hseq, hv.seq_loop (Or.inl hb)] at ht
    cases ht

/-- What is left of a step that waits for the sink is what is left of the step that found it ready. -/
theorem exec_heldOutput (hb : e.b.hasFunction = true) (h : exec e.toInstr s = .next t) (ht : t.seq = .waitOut) :
    fetchEntry t = fetchEntry s ∧ ∃ f, resumeOutput e.toInstr { t with script := [], sinkReady := true } = some f ∧
      exec e.toInstr { s with script := [], sinkReady := true } = f.outcome := by
  let s' : State := { s with script := [], sinkReady := true }
  obtain ⟨hp, u, ⟨ha, x, rest, hx, rfl⟩ | ⟨ha, rfl⟩, rfl⟩ := exec_waitOut hb h ht
  · have hroom := hasRoom_of_execWith (exec_toInstr e s ▸ h) (by simp) ha hp
    obtain ⟨f, hf, hexec⟩ := execWith_of_input (s := s') ha hp hroom
    rw [resumeInput_of_both (s := countFetch s') ha hb hx, ← resumeOutput_seq .waitOut rfl] at hf
    exact ⟨rfl, f, hf, (exec_toInstr e s').trans hexec⟩
  · obtain ⟨f, hf, hexec⟩ := execWith_of_output (s := s') ha hb hp
    rw [← resumeOutput_seq .waitOut rfl] at hf
    exact ⟨rfl, f, hf, (exec_toInstr e s').trans hexec⟩

/-- A step that waited for the sink ends, once acknowledged, as the step that found it ready (60_exceptions.md R111). -/
theorem exec_resumesOutput (he : fetchEntry s = some e) (hb : e.b.hasFunction = true)
    (h : exec e.toInstr s = .next t) (ht : t.seq = .waitOut) :
    ∃ u, step { t with script := [], sinkReady := true } = .next u ∧
      exec e.toInstr { s with script := [], sinkReady := true } = .next u ∧
      FromOutput e { t with script := [], sinkReady := true } u := by
  obtain ⟨hfetch, f, hf, hx⟩ := exec_heldOutput hb h ht
  obtain ⟨u, hu, hfrom⟩ := fromOutput_of_resumeOutput hf
  have hturn : step { t with script := [], sinkReady := true } = f.outcome :=
    (step_core rfl).trans (coreTurn_waitOut ht (hfetch.trans he) hf)
  exact ⟨u, hturn.trans hu, hx.trans hu, hfrom⟩

end Held

section Boundary

variable {e : Entry} {s t u : State}

/-- The script of a STOP during a step, up to the STOP: the step is issued and waits, and the STOP is latched. -/
theorem run_stopDuringStep {r : List Event} (hscript : s.script = .core :: .host .stop :: r) (hissued : StepIssued s)
    (he : fetchEntry s = some e) (h : step s = .next t) (ht : t.seq = .waitIn ∨ t.seq = .waitOut) :
    exec e.toInstr { s with script := .host .stop :: r } = .next t ∧ t.tr = .none ∧
      ∀ k, Host.Core.run Sys2Proof.core (k + 2) s =
        Host.Core.run Sys2Proof.core k { t with script := r, stopReq := true } := by
  have hexec : exec e.toInstr { s with script := .host .stop :: r } = .next t := by
    rw [← h, step_coreEvent hscript]
    exact (coreTurn_issues (s := { s with script := .host .stop :: r }) { hissued with } he).symm
  obtain ⟨-, htr, -, -, -, htscript⟩ := execWith_waits ((exec_toInstr e _).symm.trans hexec) ht hissued.seq
  have hactive : t.seq ≠ .idle := by rcases ht with ht | ht <;> simp [ht]
  exact ⟨hexec, htr.trans hissued.tr, fun k => by rw [run_succ h, run_succ (step_stop htscript hactive)]⟩

/-- Once the step has ended with a STOP pending, the loop pauses with `TR = 0`, unless a termination holds, and reports
`HaltInstruction` where the step halted; the STOP is cleared either way (40_engine.md R85). -/
theorem run_stopsAtBoundary
    (hrun : ∀ k, Host.Core.run Sys2Proof.core (k + 4) s = Host.Core.run Sys2Proof.core k { u with stopReq := true })
    (hscript : u.script = []) (hseq : u.seq = .loop) (htr : u.tr = .none) :
    Host.Core.run Sys2Proof.core 4 s = .next { u with stopReq := true } ∧
    (u.halted = false → 0 ≤ u.pc → u.pc < u.irf.length → u.instructionCount < 1000000 →
      Host.Core.run Sys2Proof.core 5 s = .next (loopExit .none u)) ∧
    (u.halted = true → Host.Core.run Sys2Proof.core 5 s = .next (loopExit .haltInstruction u)) := by
  have hlast : ∀ {v}, loopTest hw { u with stopReq := true } = some v → Host.Core.run Sys2Proof.core 5 s = .next v :=
    fun h => (hrun 1).trans (run_succ (step_exits (s := { u with stopReq := true }) hscript hseq h) 0)
  exact ⟨hrun 0, fun hh hlow hhigh hcount => hlast (loopTest_paused htr hh ⟨hlow, hhigh⟩ hcount rfl),
    fun hh => hlast (loopTest_halted htr hh)⟩

end Boundary

/-- Settles O33: the waiting step goes on as without the STOP, and the run loop's next test sees the STOP. -/
theorem stopTakesEffectAtTheBoundary : Obligations.StopTakesEffectAtTheBoundary := by
  intro e s t u hissued he h
  rintro (⟨x, hscript, ha, hi, hready, ht, hu⟩ | ⟨hscript, hb, -, ht, hu⟩)
  · obtain ⟨hexec, htr, hrun⟩ := run_stopDuringStep hscript hissued he h (Or.inl ht)
    obtain ⟨w, hstep, hend, hfrom⟩ :=
      exec_resumesInput (s := { s with script := [.host .stop, .inputAnswer x] }) he ha hexec ht x []
    obtain rfl : w = u := Host.Outcome.next.inj (hend.symm.trans hu)
    obtain ⟨-, -, rfl⟩ := execWith_waitIn ((exec_toInstr e _).symm.trans hexec) ht ha
    have hgoes := step_withStop hstep (Or.inl rfl) rfl true
    have frame := fromInput_frame hfrom
    refine run_stopsAtBoundary (fun k => ?_) frame.script (hfrom.seq_loop (by simp) hready (Or.inl ha))
      (frame.tr.trans htr)
    rw [hrun, run_succ (step_answer rfl), ← run_succ hgoes]
    simp [hi]
  · obtain ⟨hexec, htr, hrun⟩ := run_stopDuringStep hscript hissued he h (Or.inr ht)
    obtain ⟨w, hstep, hend, hfrom⟩ :=
      exec_resumesOutput (s := { s with script := [.host .stop, .sinkReady true] }) he hb hexec ht
    obtain rfl : w = u := Host.Outcome.next.inj (hend.symm.trans hu)
    have hgoes := step_withStop hstep (Or.inr ht) rfl true
    have frame := fromOutput_frame (p := hw) hfrom
    refine run_stopsAtBoundary (fun k => ?_) frame.script (hfrom.seq_loop rfl (Or.inl hb)) (frame.tr.trans htr)
    rw [hrun, run_succ (step_sink rfl), ← run_succ hgoes]

end Sys2Proof.Machine
end

section
/-! PROOFS. The family of 41_instruction_classes.md: where each function class completes, its effect and its frame
(R89 to R95), and the worked example of each class (R88 to R95). -/

namespace Sys2Proof.Machine

open Sys2Proof.Config

/-! ### A phase whose collaborator is there -/

section Phases

variable {s t : State}

/-- The state after an input phase that took the answer `x` and left `rest` (40_engine.md R75). -/
def answerStored (a : Nat) (x : InAnswer) (rest : List InAnswer) (s : State) : State :=
  memWrite a (answerInt x) { s with input := rest, seq := .loop }

/-- The state after an output phase that the sink acknowledged (40_engine.md R76). -/
def byteEmitted (b : Nat) (s : State) : State :=
  { s with output := s.output ++ [lowByte (memRead s b)], seq := .loop }

theorem inputPhase_stores (a : Nat) {x : InAnswer} {rest : List InAnswer} (hi : s.input = x :: rest) :
    inputPhase hw a s = .go (answerStored a x rest s) := by
  rw [inputPhase_answered hw a hi, inputValue_hw, answerStored]

theorem outputPhase_emits (b : Nat) (hr : s.sinkReady = true) : outputPhase b s = .go (byteEmitted b s) := by
  rw [outputPhase_ready b hr, trunc8_eq_lowByte, byteEmitted]

/-- The cell an input phase wrote holds the answer, and every other cell what it held (20_memory.md R37). -/
theorem memRead_answerStored (hwf : Memory.wf s.mem) (a : Nat) (x : InAnswer) (rest : List InAnswer) (y : Nat) :
    memRead (answerStored a x rest s) y = if y = a then answerInt x else memRead s y := by
  split
  · next hya => exact hya ▸ memRead_memWrite_same hwf y _
  · next hya => exact memRead_memWrite_other hwf hya _

/-- An output phase after an input phase outputs the answer's byte where both name one cell. -/
theorem output_byteEmitted_answerStored (hwf : Memory.wf s.mem) (a b : Nat) (x : InAnswer) (rest : List InAnswer) :
    (byteEmitted b (answerStored a x rest s)).output =
      s.output ++ [lowByte (if b = a then answerInt x else memRead s b)] := by
  rw [byteEmitted, memRead_answerStored hwf]
  rfl

/-- A step that ends with the store and the footprint of one write has written that cell alone. -/
theorem sameStoreBut_of_write (hwf : Memory.wf s.mem) {a : Nat} {v : Int} (hmem : t.mem = s.mem.write a v)
    (hfoot : t.footprint = s.footprint.insert a) : SameStoreBut a s t := by
  obtain ⟨hcells, hwritten⟩ := sameStoreBut_memWrite hwf a v
  exact ⟨fun y hy => (memRead_congr (s := memWrite a v s) hmem y).trans (hcells y hy), fun y => hfoot ▸ hwritten y⟩

end Phases

/-! ### The steps of the classes with an input or an output phase -/

section Classes

variable {e : Entry} {s : State}

/-- The rest of a step from its output phase on is that phase and the end of the class's step. -/
theorem resumeOutput_outputThenEnd (hb : e.b.hasFunction = true) :
    resumeOutput e.toInstr s = some ((outputPhase e.b.value s).andThen (endPhase e)) := by
  obtain ⟨⟨a, fa⟩, ⟨b, fb⟩, ⟨c, fc⟩⟩ := e
  obtain rfl : fb = true := hb
  cases fa <;> cases fc <;> rfl

/-- Without an output phase, the rest of a step from its input phase on is that phase and the end of the class's
step. -/
theorem resumeInput_inputThenEnd (ha : e.a.hasFunction = true) (hb : e.b.hasFunction = false) :
    resumeInput hw e.toInstr s = some ((inputPhase hw e.a.value s).andThen (endPhase e)) := by
  obtain ⟨⟨a, fa⟩, ⟨b, fb⟩, ⟨c, fc⟩⟩ := e
  obtain rfl : fa = true := ha
  obtain rfl : fb = false := hb
  cases fc <;> rfl

/-- OUT and OUT_HALT, with the operand in range and the sink ready. -/
theorem exec_outputs (ha : e.a.hasFunction = false) (hb : e.b.hasFunction = true) (hB : e.b.value ≤ hw.addrMax)
    (hr : s.sinkReady = true) :
    exec e.toInstr s = (endPhase e (byteEmitted e.b.value (countFetch s))).outcome := by
  have hp : PhasesInRange hw e := ⟨fun h => absurd h (by simp [ha]), fun _ => hB⟩
  obtain ⟨f, hf, hx⟩ := execWith_of_output (s := s) ha hb hp
  obtain rfl := Option.some.inj (hf.symm.trans (resumeOutput_outputThenEnd hb))
  rw [exec_toInstr, hx, outputPhase_emits (s := countFetch s) _ hr, Flow.go_andThen]

variable {x : InAnswer} {rest : List InAnswer} (ha : e.a.hasFunction = true) (hA : e.a.value ≤ hw.addrMax)
  (hroom : RoomFor e.a.value s) (hi : s.input = x :: rest)
include ha hA hroom hi

/-- IN and IN_HALT, with the operand in range, a store entry and an answer. -/
theorem exec_inputs (hb : e.b.hasFunction = false) :
    exec e.toInstr s = (endPhase e (answerStored e.a.value x rest (countFetch s))).outcome := by
  have hp : PhasesInRange hw e := ⟨fun _ => hA, fun h => absurd h (by simp [hb])⟩
  obtain ⟨f, hf, hx⟩ := execWith_of_input ha hp (hasRoom_of_roomFor hroom)
  obtain rfl := Option.some.inj (hf.symm.trans (resumeInput_inputThenEnd ha hb))
  rw [exec_toInstr, hx, inputPhase_stores (s := countFetch s) _ hi, Flow.go_andThen]

/-- IN_OUT and IN_OUT_HALT, with both operands in range, a store entry, an answer and the sink ready: the output phase
sees the store that the input phase left. -/
theorem exec_inputs_outputs (hb : e.b.hasFunction = true) (hB : e.b.value ≤ hw.addrMax) (hr : s.sinkReady = true) :
    exec e.toInstr s =
      (endPhase e (byteEmitted e.b.value (answerStored e.a.value x rest (countFetch s)))).outcome := by
  obtain ⟨f, hf, hx⟩ := execWith_of_input ha ⟨fun _ => hA, fun _ => hB⟩ (hasRoom_of_roomFor hroom)
  have hrest := (resumeInput_of_both (p := hw) (s := countFetch s) ha hb hi).trans (resumeOutput_outputThenEnd hb)
  obtain rfl := Option.some.inj (hf.symm.trans hrest)
  rw [exec_toInstr, hx, inputValue_hw, ← answerStored,
    outputPhase_emits (s := answerStored e.a.value x rest (countFetch s)) _ hr, Flow.go_andThen]

end Classes

/-! ### The function classes -/

/-- Settles O7: the halt phase is the whole step, and the next test sees its mark. -/
theorem haltStopsInPlace : Obligations.HaltStopsInPlace := by
  intro a b c s
  exact ⟨_, rfl, rfl, rfl, ⟨fun _ => rfl, rfl⟩, rfl, rfl, rfl, rfl, rfl, by constructor <;> rfl,
    fun hseq htr hscript => ⟨_, step_exits hscript hseq (loopTest_halted htr rfl), rfl, rfl⟩⟩

/-- Settles O8: the output phase, then the next index. -/
theorem outWritesTheLowByte : Obligations.OutWritesTheLowByte := by
  intro a b c s hb hr
  exact ⟨_, exec_outputs (e := (Instr.out a b c).toEntry) rfl rfl hb hr, rfl, rfl, rfl, ⟨fun _ => rfl, rfl⟩,
    rfl, rfl, rfl, by constructor <;> rfl⟩

/-- Settles O9: the output phase, then the halt phase. -/
theorem outHaltWritesThenHalts : Obligations.OutHaltWritesThenHalts := by
  intro a b c s hb hr
  exact ⟨_, exec_outputs (e := (Instr.outHalt a b c).toEntry) rfl rfl hb hr, rfl, rfl, rfl, ⟨fun _ => rfl, rfl⟩,
    rfl, rfl, rfl, by constructor <;> rfl⟩

/-- Settles O10: the input phase, then the next index. -/
theorem inStoresTheAnswer : Obligations.InStoresTheAnswer := by
  intro a b c s x rest hwf ha hroom hi
  exact ⟨_, exec_inputs (e := (Instr.inp a b c).toEntry) rfl ha hroom hi rfl, Memory.read_write_same hwf a _,
    sameStoreBut_of_write hwf rfl rfl, rfl, rfl, rfl, rfl, rfl, rfl, by constructor <;> rfl⟩

/-- Settles O11: the input phase, then the halt phase. -/
theorem inHaltStoresThenHalts : Obligations.InHaltStoresThenHalts := by
  intro a b c s x rest hwf ha hroom hi
  exact ⟨_, exec_inputs (e := (Instr.inpHalt a b c).toEntry) rfl ha hroom hi rfl, Memory.read_write_same hwf a _,
    sameStoreBut_of_write hwf rfl rfl, rfl, rfl, rfl, rfl, rfl, rfl, by constructor <;> rfl⟩

/-- Settles O12: the input phase, the output phase on the store it left, then the next index. -/
theorem inOutStoresThenOutputs : Obligations.InOutStoresThenOutputs := by
  intro a b c s x rest hwf ha hb hroom hi hr
  exact ⟨_, exec_inputs_outputs (e := (Instr.inpOut a b c).toEntry) rfl ha hroom hi rfl hb hr,
    Memory.read_write_same hwf a _, sameStoreBut_of_write hwf rfl rfl, rfl,
    output_byteEmitted_answerStored (s := countFetch s) hwf a b x rest, rfl, rfl, rfl, rfl, by constructor <;> rfl⟩

/-- Settles O13: the input phase, the output phase on the store it left, then the halt phase. -/
theorem inOutHaltRunsAllPhases : Obligations.InOutHaltRunsAllPhases := by
  intro a b c s x rest hwf ha hb hroom hi hr
  exact ⟨_, exec_inputs_outputs (e := (Instr.inpOutHalt a b c).toEntry) rfl ha hroom hi rfl hb hr,
    Memory.read_write_same hwf a _, sameStoreBut_of_write hwf rfl rfl, rfl,
    output_byteEmitted_answerStored (s := countFetch s) hwf a b x rest, rfl, rfl, rfl, rfl, by constructor <;> rfl⟩

/-! ### The worked examples -/

/-- A source whose bits are an instruction's canonical encoding decodes to that instruction's entry. -/
theorem decodeSource_of_encoding {i : Instr} {source : List Char}
    (h : source.filter (fun ch => !hw.wsSet.contains ch) = bitsToSource (encode i)) :
    decodeSource hw source = .ok [i.toEntry] := by
  obtain ⟨e, he, hei⟩ := loadedEncodingIsTheInstruction i source h
  exact toInstr_eq_iff.mp hei ▸ he

/-- Settles O59: without its spaces, each example is its instruction's canonical encoding. -/
theorem specExamplesDecode : Obligations.SpecExamplesDecode := by
  refine ⟨?_, ?_, ?_, ?_, ?_, ?_, ?_, ?_⟩ <;> exact decodeSource_of_encoding (by decide)

end Sys2Proof.Machine
end

section
/-! PROOFS. The family of 60_exceptions.md: steps that wait for a collaborator (R111), the faults (R98, R103) and the
event codes (R96), the host's commands and READ_STATUS inside a step (R108). -/

namespace Sys2Proof.Machine

open Sys2Proof.Config

/-! ### Waiting for the source -/

section Waits

variable {p : Params} {e : Entry} {s u : State}

/-- While the source has not answered, the rest of a step from its input phase on is the wait. -/
theorem resumeInput_unanswered (ha : e.a.hasFunction = true) (hi : s.input = []) :
    resumeInput p e.toInstr s = some (.stop { s with seq := .waitIn }) := by
  obtain ⟨⟨a, fa⟩, ⟨b, fb⟩, ⟨c, fc⟩⟩ := e
  obtain rfl : fa = true := ha
  cases fb <;> cases fc <;>
    simp only [Entry.toInstr, resumeInput, inpFromInput, inpHaltFromInput, inpOutFromInput, inpOutHaltFromInput,
      inputPhase_unanswered _ _ hi, Flow.stop_andThen]

/-- An input class whose checks have passed waits for the source; only its count has been taken. -/
theorem execWith_input_unanswered (ha : e.a.hasFunction = true) (hp : PhasesInRange p e)
    (hroom : hasRoom p e.a.value s = true) (hi : s.input = []) :
    execWith p e.toInstr s = .next { countFetch s with seq := .waitIn } := by
  obtain ⟨f, hf, hx⟩ := execWith_of_input (s := s) ha hp hroom
  obtain rfl := Option.some.inj (hf.symm.trans (resumeInput_unanswered ha hi))
  exact hx

/-- A step in `WAIT_IN` whose source has not answered leaves its state as it is. -/
theorem step_waitIn_unanswered (hscript : s.script = []) (hseq : s.seq = .waitIn) (hwaits : WaitsForInput hw s)
    (hi : s.input = []) : step s = .next s := by
  obtain ⟨-, -, -, e, he, ha, -⟩ := hwaits
  calc step s = .next { s with seq := .waitIn } :=
        (step_core hscript).trans (coreTurn_waitIn hseq he (resumeInput_unanswered ha hi))
    _ = .next s := by rw [← hseq]

/-- A step in `WAIT_OUT` whose sink does not acknowledge leaves its state as it is. -/
theorem step_waitOut_notReady (hscript : s.script = []) (hseq : s.seq = .waitOut) (hwaits : WaitsForSink hw s)
    (hr : s.sinkReady = false) : step s = .next s := by
  obtain ⟨-, -, -, e, he, hb, -⟩ := hwaits
  calc step s = .next { s with seq := .waitOut } :=
        (step_core hscript).trans (coreTurn_waitOut hseq he (resumeOutput_notReady hb hr))
    _ = .next s := by rw [← hseq]

/-- An input phase schedules nothing outside. -/
theorem InputDone.script (h : InputDone p e s u) : u.script = s.script := by
  rcases h with ⟨-, x, rest, -, rfl⟩ | ⟨-, rfl⟩ <;> rfl

end Waits

/-- Settles O17: the checks pass, and the input phase is the wait. -/
theorem inputClassesWaitForAnAnswer : Obligations.InputClassesWaitForAnAnswer := by
  intro e s ha hA hB hroom hi
  exact (exec_toInstr e s).trans (execWith_input_unanswered ha ⟨fun _ => hA, hB⟩ (hasRoom_of_roomFor hroom) hi)

/-- Settles O19: what is left of the held step is what the unheld step does after its checks (`exec_resumesInput`). -/
theorem heldInputStepEndsAsUnheld : Obligations.HeldInputStepEndsAsUnheld := by
  intro e s t x more he ha hscript _ h ht
  obtain ⟨-, -, hwait⟩ := execWith_waitIn ((exec_toInstr e s).symm.trans h) ht ha
  have htscript : t.script = [] := hwait ▸ hscript
  obtain ⟨u, hheld, hunheld, -⟩ := exec_resumesInput he ha h ht x more
  calc step { t with input := x :: more } = step { t with script := [], input := x :: more } := by rw [← htscript]
    _ = .next u := hheld
    _ = exec e.toInstr { s with script := [], input := x :: more } := hunheld.symm
    _ = exec e.toInstr { s with input := x :: more } := by rw [← hscript]

/-- Settles O20: what is left of the held step is what the unheld step does from its output phase on
(`exec_resumesOutput`). -/
theorem heldOutputStepEndsAsUnheld : Obligations.HeldOutputStepEndsAsUnheld := by
  intro e s t he hb hscript _ h ht
  obtain ⟨-, v, hv, hwait⟩ := exec_waitOut hb h ht
  have htscript : t.script = [] := hwait ▸ hv.script.trans hscript
  obtain ⟨u, hheld, hunheld, -⟩ := exec_resumesOutput he hb h ht
  calc step { t with sinkReady := true } = step { t with script := [], sinkReady := true } := by rw [← htscript]
    _ = .next u := hheld
    _ = exec e.toInstr { s with script := [], sinkReady := true } := hunheld.symm
    _ = exec e.toInstr { s with sinkReady := true } := by rw [← hscript]

/-- Settles O21: either wait is a state that a step leaves as it is. -/
theorem unansweredStepsWaitForEver : Obligations.UnansweredStepsWaitForEver := by
  rintro k s hscript (⟨hseq, hwaits, hi⟩ | ⟨hseq, hwaits, hr⟩)
  · exact run_fixed (step_waitIn_unanswered hscript hseq hwaits hi) k
  · exact run_fixed (step_waitOut_notReady hscript hseq hwaits hr) k

/-! ### Faults and events -/

/-- Settles O22: of what a step can do, only a fault writes `TR`. -/
theorem faultingStepIsPrecise : Obligations.FaultingStepIsPrecise := by
  intro i s t hs h ht
  rw [exec_toEntry] at h
  rcases exec_inv h with ⟨k, rfl, -⟩ | ⟨-, -, -, r, -, -, -, rfl⟩ | ⟨-, -, hf⟩
  · exact ⟨k, faultedStep_takeFault k s⟩
  · exact absurd hs ht
  · exact absurd ((fromInput_frame hf).tr.trans hs) ht

/-- Settles O27, code by code. -/
theorem eventsHaveTheirCodes : Obligations.EventsHaveTheirCodes :=
  ⟨rfl, rfl, rfl, rfl, rfl, rfl, rfl, rfl, rfl⟩

/-! ### The host's commands -/

section HostCommands

variable {s : State} {r : List Event}

/-- A command whose precondition fails is refused. -/
theorem step_refused {cmd : HostCommand} (h : s.script = .host cmd :: r) (hno : ¬ commandAccepted s cmd) :
    step s = .next (refuseCommand { s with script := r }) := by
  rw [step_host h]
  refine congrArg Host.Outcome.next ?_
  cases cmd with
  | load source => exact if_neg hno
  | run => exact if_neg hno
  | stop => exact if_pos (not_not.mp hno)
  | readStatus => exact absurd trivial hno
  | readMem x => exact if_neg hno

/-- READ_MEM of a data address answers its cell while the core is idle. -/
theorem step_readMem {x : Int} (h : s.script = .host (.readMem x) :: r) (hok : commandAccepted s (.readMem x)) :
    step s = .next (answerHost (.cell (memRead s x.toNat)) { s with script := r }) :=
  (step_host h).trans (congrArg Host.Outcome.next (if_pos hok))

/-- READ_STATUS answers with the values of the last step boundary. -/
theorem step_readStatus (h : s.script = .host .readStatus :: r) :
    step s = .next (answerHost (.status s.ls s.tr s.halted s.pc (boundaryCount s) (boundarySeq s))
      { s with script := r }) := step_host h

/-- Idle or at a loop state, the core stands at a step boundary. -/
theorem boundary_of_notWaiting (h : s.seq = .idle ∨ s.seq = .loop) :
    boundaryCount s = s.instructionCount ∧ boundarySeq s = s.seq := by
  rcases h with h | h <;> simp only [boundaryCount, boundarySeq, h, and_self]

/-- Inside a step that waits, the last boundary was the loop state before its fetch. -/
theorem boundary_of_waiting (h : s.seq = .waitIn ∨ s.seq = .waitOut) :
    boundaryCount s = s.instructionCount - 1 ∧ boundarySeq s = .loop := by
  rcases h with h | h <;> simp only [boundaryCount, boundarySeq, h, and_self]

/-- LOAD leaves the host's side as it is: what it scheduled, and what it got back. -/
theorem loadProgram_hostSide (p : Params) (source : List Char) (s : State) :
    (loadProgram p source s).replies = s.replies ∧ (loadProgram p source s).script = s.script := by
  unfold loadProgram
  split <;> exact ⟨rfl, rfl⟩

/-- A LOAD the idle core accepts answers with the `LS` and `TR` it leaves. -/
theorem step_load {source : List Char} (h : s.script = .host (.load source) :: r) (hseq : s.seq = .idle) :
    ∃ t, step s = .next t ∧ t.replies = s.replies ++ [.loadDone t.ls t.tr] ∧ t.script = r := by
  obtain ⟨hreplies, hscript⟩ := loadProgram_hostSide hw source { s with script := r }
  refine ⟨_, (step_host h).trans (congrArg Host.Outcome.next (if_pos hseq)), ?_, hscript⟩
  rw [answerHost_replies, hreplies]
  rfl

end HostCommands

/-- Settles O31, row by row of the table of R108. -/
theorem hostCommandsFollowTheirTable : Obligations.HostCommandsFollowTheirTable := by
  intro s cmd rest h
  refine ⟨step_refused h, ?run, ?stop, ?readMem, ?readStatus, ?load⟩
  case run =>
    rintro hok rfl
    obtain ⟨hls, hseq⟩ := hok
    exact step_run h hls hseq
  case stop =>
    rintro hseq rfl
    exact step_stop h hseq
  case readMem =>
    rintro x hok rfl
    exact step_readMem h hok
  case readStatus =>
    rintro rfl hseq
    obtain ⟨hcount, hseq⟩ := boundary_of_notWaiting hseq
    rw [step_readStatus h, hcount, hseq]
    rfl
  case load =>
    rintro src hseq rfl
    exact step_load h hseq

/-- Settles O32: up to its wait the step has changed nothing that READ_STATUS shows but its count
(`execWith_waits`). -/
theorem statusInsideAStepIsTheBoundarys : Obligations.StatusInsideAStepIsTheBoundarys := by
  intro e s t rest hseq h ht
  obtain ⟨hls, htr, hhalted, hpc, hcount, -⟩ := execWith_waits ((exec_toInstr e s).symm.trans h) ht hseq
  let t' : State := { t with script := .host .readStatus :: rest }
  obtain ⟨hbcount, hbseq⟩ := boundary_of_waiting (s := t') ht
  rw [step_readStatus (s := t') rfl, hbcount, hbseq]
  simp only [t', answerHost, hls, htr, hhalted, hpc, hcount, hseq, Nat.add_sub_cancel]

end Sys2Proof.Machine
end

section
/-! PROOFS. The family of 70_reset_and_hazards.md: the reset values at power-on and after LOAD (R112), the first step of
the first RUN (R113), and that zero input keeps every cell 0 (R115). -/

namespace Sys2Proof.Machine

open Sys2Proof.Config

/-! ### Power-on -/

/-- Settles O42: a cleared core meets the invariant, and power-on is one (clearing it again changes nothing). -/
theorem resetMeetsTheInvariant : Obligations.ResetMeetsTheInvariant := inv_cleared hw State.reset

/-! ### LOAD -/

section Load

variable {p : Params} {source : List Char} {s : State}

/-- The values of step (1) of R112 that decoding a program leaves as they are. -/
structure ResetValues (s : State) : Prop where
  mem              : s.mem = []
  footprint        : s.footprint = []
  pc               : s.pc = 0
  halted           : s.halted = false
  instructionCount : s.instructionCount = 0
  stopReq          : s.stopReq = false
  seq              : s.seq = .idle

/-- An empty store reads 0 everywhere. -/
theorem memRead_of_mem_nil (h : s.mem = []) (x : Nat) : memRead s x = 0 := by
  rw [memRead, h]
  rfl

theorem loadProgram_ok {es : List Entry} (h : decodeSource p source = .ok es) (s : State) :
    loadProgram p source s = { s.cleared with irf := es, ls := .loaded } := by
  rw [loadProgram, h]

theorem loadProgram_error {e : LoadError} (h : decodeSource p source = .error e) (s : State) :
    loadProgram p source s = { s.cleared with ls := .loadFailed, tr := loadErrorReason e } := by
  rw [loadProgram, h]

/-- Whether or not the source decodes, LOAD resets the core. -/
theorem loadProgram_resetValues (p : Params) (source : List Char) (s : State) :
    ResetValues (loadProgram p source s) := by
  unfold loadProgram
  cases decodeSource p source <;> constructor <;> rfl

/-- The state after a LOAD that the idle core accepted: the program or the error recorded, and `LS` and `TR` given to
the host. -/
def afterLoad (source : List Char) (s : State) : State :=
  answerHost (.loadDone (loadProgram hw source s).ls (loadProgram hw source s).tr) (loadProgram hw source s)

theorem step_afterLoad {r : List Event} (h : s.script = .host (.load source) :: r) (hseq : s.seq = .idle) :
    step s = .next (afterLoad source { s with script := r }) :=
  (step_host h).trans (congrArg Host.Outcome.next (if_pos hseq))

/-- What a LOAD gives the host is the `LS` and `TR` it leaves. -/
theorem afterLoad_replies (source : List Char) (s : State) :
    (afterLoad source s).replies = s.replies ++ [.loadDone (afterLoad source s).ls (afterLoad source s).tr] := by
  rw [afterLoad, answerHost_replies, (loadProgram_hostSide hw source s).1]
  rfl

theorem afterLoad_ok {es : List Entry} (h : decodeSource hw source = .ok es) (s : State) :
    (afterLoad source s).irf = es ∧ (afterLoad source s).ls = .loaded ∧ (afterLoad source s).tr = .none := by
  rw [afterLoad, loadProgram_ok h]
  exact ⟨rfl, rfl, rfl⟩

theorem afterLoad_error {e : LoadError} (h : decodeSource hw source = .error e) (s : State) :
    (afterLoad source s).irf = [] ∧ (afterLoad source s).ls = .loadFailed ∧
      (afterLoad source s).tr = loadErrorReason e := by
  rw [afterLoad, loadProgram_error h]
  exact ⟨rfl, rfl, rfl⟩

end Load

/-- Settles O3: the accepted LOAD's state, by what the source decodes to; power-on by its definition. -/
theorem loadIsTheReset : Obligations.LoadIsTheReset := by
  refine ⟨fun s source rest hseq hscript => ?load, rfl, memRead_of_mem_nil rfl, rfl, rfl, rfl, rfl, rfl, rfl, rfl, rfl⟩
  case load =>
    obtain ⟨hmem, hfoot, hpc, hhalt, hcount, hstop, hidle⟩ := loadProgram_resetValues hw source { s with script := rest }
    refine ⟨_, step_afterLoad hscript hseq, memRead_of_mem_nil hmem, hmem, hfoot, hpc, hhalt, hcount, hstop, hidle,
      fun es hes => ?ok, fun e he => ?error, afterLoad_replies source _⟩
    case ok =>
      obtain ⟨hirf, hls, htr⟩ := afterLoad_ok hes { s with script := rest }
      exact ⟨hirf, congrArg List.length hirf, hls, htr⟩
    case error =>
      obtain ⟨hirf, hls, htr⟩ := afterLoad_error he { s with script := rest }
      refine ⟨congrArg List.length hirf, hls, ?_⟩
      rw [htr]
      cases e <;> rfl

/-! ### The first RUN -/

section FirstRun

variable {source : List Char} {s : State} {es : List Entry}

/-- The loop state at which the first RUN of a loaded program starts, nothing more being scheduled. -/
def firstLoopState (es : List Entry) (s : State) : State :=
  { s.cleared with
    irf     := es
    ls      := .loaded
    seq     := .loop
    script  := []
    replies := s.replies ++ [.loadDone .loaded .none] }

/-- LOAD and RUN bring an idle machine there, whatever the run goes on with. -/
theorem run_loadRun (k : Nat) (hseq : s.seq = .idle) (hscript : s.script = [.host (.load source), .host .run])
    (hes : decodeSource hw source = .ok es) :
    Host.Core.run Sys2Proof.core (k + 2) s = Host.Core.run Sys2Proof.core k (firstLoopState es s) := by
  have hload := step_afterLoad hscript hseq
  rw [afterLoad, loadProgram_ok hes] at hload
  rw [run_succ hload, run_succ (step_run rfl rfl rfl)]
  rfl

/-- A program with an entry has its first step there. -/
theorem stepIssued_firstLoopState (e : Entry) (es : List Entry) (s : State) :
    StepIssued (firstLoopState (e :: es) s) where
  ls      := rfl
  seq     := rfl
  tr      := rfl
  halted  := rfl
  pcLow   := le_refl 0
  pcHigh  := Int.natCast_pos.mpr (Nat.succ_pos es.length)
  count   := (by decide : 0 < hw.cap)
  stopReq := rfl

/-- An empty program's first RUN ends there: no index is inside it. -/
theorem step_firstLoopState_nil (s : State) :
    step (firstLoopState [] s) = .next (loopExit .programCounterOutOfRange (firstLoopState [] s)) :=
  step_exits rfl rfl (loopTest_pcOutOfRange rfl rfl fun hpc => lt_irrefl 0 hpc.2)

end FirstRun

/-- Settles O5: the loop state after LOAD and RUN issues the step of index 0, or has no index to issue one at. -/
theorem firstRunStartsAtIndexZero : Obligations.FirstRunStartsAtIndexZero := by
  refine fun s source hseq hscript => ⟨fun e es hes => ?entry, fun hes => ?empty⟩
  case entry =>
    have hfirst := (stepRunsTheFetchedInstruction _ e (stepIssued_firstLoopState e es s) rfl).1 rfl
    exact ⟨_, run_loadRun 0 hseq hscript hes, rfl, rfl, rfl, rfl, memRead_of_mem_nil rfl, hfirst⟩
  case empty =>
    refine ⟨loopExit .programCounterOutOfRange (firstLoopState [] s), ?_, rfl, rfl, rfl, rfl, rfl, rfl⟩
    rw [run_loadRun 1 hseq hscript hes, run_succ (step_firstLoopState_nil s), run_zero]

/-! ### Zero input -/

section ZeroInput

variable {s t : State} {e : Entry}

/-- The premise of R115 about a state: every cell is 0, and no byte but `0x00` will be read. -/
def AllZero (s : State) : Prop := s.mem = [] ∧ OnlyZeroInput s

/-- Writing 0 into an empty store leaves it empty. -/
theorem Memory.write_nil_zero (x : Nat) : Memory.write [] x 0 = [] := rfl

/-- A zero byte and the end of the input both write 0 (20_memory.md R41). -/
theorem inputValue_eq_zero {x : InAnswer} (h : x = .eoi ∨ x = .byte 0) : inputValue hw x = 0 := by
  rcases h with rfl | rfl <;> rfl

/-- Where no answer and no event is new, no other byte will be read. -/
theorem OnlyZeroInput.of_subset (h : OnlyZeroInput s) (hi : t.input ⊆ s.input) (hs : t.script ⊆ s.script) :
    OnlyZeroInput t := by
  obtain ⟨hinput, hscript⟩ := h
  exact ⟨fun x hx => hinput x (hi hx), fun x hx => hscript x (hs hx)⟩

/-- The premise speaks of the store, the answers and the events alone. -/
theorem AllZero.of_eq (h : AllZero s) (hm : t.mem = s.mem) (hi : t.input = s.input) (hs : t.script = s.script) :
    AllZero t := by
  obtain ⟨hmem, honly⟩ := h
  exact ⟨hm.trans hmem, honly.of_subset (hi ▸ List.Subset.refl _) (hs ▸ List.Subset.refl _)⟩

/-- An event that a turn takes from the script leaves the premise to the rest. -/
theorem AllZero.takeEvent (h : AllZero s) {ev : Event} {r : List Event} (hr : s.script = ev :: r) :
    AllZero { s with script := r } := by
  obtain ⟨hmem, honly⟩ := h
  exact ⟨hmem, honly.of_subset (List.Subset.refl _) (hr ▸ List.subset_cons_self ev r)⟩

/-- The phases of a step store nothing but 0. -/
theorem AllZero.after_phases (h : AllZero s) (f : PhaseFrame hw e s t) : AllZero t := by
  obtain ⟨hmem, honly⟩ := h
  refine ⟨?store, honly.of_subset ?input (f.script ▸ List.Subset.refl _)⟩
  case store =>
    rcases f.store with ⟨hm, -⟩ | ⟨x, hx, -, hm, -⟩
    · exact hm.trans hmem
    · rw [hm, hmem, inputValue_eq_zero (honly.1 x hx), Memory.write_nil_zero]
  case input =>
    rcases f.input with hi | ⟨x, hx⟩
    · exact hi ▸ List.Subset.refl _
    · exact hx ▸ List.subset_cons_self x t.input

/-- Over an empty store a Subleq step that completes writes 0 and takes its branch. -/
theorem SubleqDone.of_mem_nil (hd : SubleqDone hw e s t) (hmem : s.mem = []) :
    t = { memWrite e.b.value 0 (countFetch s) with pc := e.c.value } := by
  obtain ⟨-, -, -, r, hr, -, -, rfl⟩ := hd
  have hexact : exactResult e.a.value e.b.value s = 0 := by
    rw [exactResult, memRead_of_mem_nil hmem, memRead_of_mem_nil hmem, Int.sub_self]
  rw [hexact, narrowResult_of_fits (isCell_zero hw)] at hr
  obtain rfl : 0 = r := Option.some.inj hr
  rw [branchPc_taken _ (le_refl 0)]

/-- A whole step, of whatever class, keeps every cell 0. -/
theorem AllZero.after_exec (h : AllZero s) (hx : exec e.toInstr s = .next t) : AllZero t := by
  have hcounted : AllZero (countFetch s) := h.of_eq rfl rfl rfl
  rcases exec_inv hx with ⟨k, rfl, -⟩ | hd | ⟨-, -, hf⟩
  · exact hcounted.of_eq rfl rfl rfl
  · obtain rfl := hd.of_mem_nil h.1
    exact hcounted.of_eq (by simp [h.1, Memory.write_nil_zero]) rfl rfl
  · exact hcounted.after_phases (fromInput_frame hf)

/-- So does a turn of the core. -/
theorem AllZero.after_coreTurn (h : AllZero s) (ht : coreTurn hw exec s = .next t) : AllZero t := by
  cases coreTurn_inv ht with
  | idle _ ht => exact ht ▸ h
  | leaves _ ht =>
    obtain ⟨r, rfl, -⟩ := loopTest_exit ht
    exact h.of_eq rfl rfl rfl
  | steps _ _ _ _ _ _ e _ hx => exact h.after_exec hx
  | resumesInput _ e _ _ hx => exact h.after_phases (fromInput_frame hx)
  | resumesOutput _ e _ _ hx => exact h.after_phases (fromOutput_frame hx)

/-- A host command leaves the script, and the store unless it is a LOAD, which empties it. -/
theorem hostCommand_mem_script (p : Params) (cmd : HostCommand) (s : State) :
    ((hostCommand p cmd s).mem = s.mem ∨ (hostCommand p cmd s).mem = []) ∧
      (hostCommand p cmd s).script = s.script := by
  cases cmd with
  | load source =>
    simp only [hostCommand, hostLoad]
    split
    · exact ⟨Or.inr (loadProgram_resetValues p source s).mem, (loadProgram_hostSide p source s).2⟩
    · exact ⟨Or.inl rfl, rfl⟩
  | run => simp only [hostCommand, hostRun]; split <;> exact ⟨Or.inl rfl, rfl⟩
  | stop => simp only [hostCommand, hostStop]; split <;> exact ⟨Or.inl rfl, rfl⟩
  | readStatus => exact ⟨Or.inl rfl, rfl⟩
  | readMem x => simp only [hostCommand, hostReadMem]; split <;> exact ⟨Or.inl rfl, rfl⟩

/-- A host command, LOAD included, keeps every cell 0. -/
theorem AllZero.after_hostCommand (h : AllZero s) (cmd : HostCommand) : AllZero (hostCommand hw cmd s) := by
  obtain ⟨hmem, hscript⟩ := hostCommand_mem_script hw cmd s
  have hinput := (hostCommand_channels hw cmd s).2
  exact h.of_eq (hmem.elim id fun hnil => hnil.trans h.1.symm) hinput hscript

/-- An answer that was scheduled joins those that are there. -/
theorem AllZero.after_answer (h : AllZero s) {x : InAnswer} {r : List Event} (hr : s.script = .inputAnswer x :: r) :
    AllZero { s with script := r, input := s.input ++ [x] } := by
  obtain ⟨hmem, hinput, hscript⟩ := h
  have hx : x = .eoi ∨ x = .byte 0 := hscript x (by simp [hr])
  refine ⟨hmem, fun y hy => ?_, fun y hy => hscript y (hr ▸ List.mem_cons_of_mem _ hy)⟩
  rcases List.mem_append.mp hy with hy | hy
  · exact hinput y hy
  · exact List.mem_singleton.mp hy ▸ hx

/-- Every turn of the machine keeps the premise of R115. -/
theorem AllZero.after_step (h : AllZero s) (ht : step s = .next t) : AllZero t := by
  cases step_inv ht with
  | core r hr ht =>
    rcases hr with ⟨hnil, rfl⟩ | hr
    · exact (h.of_eq (t := { s with script := [] }) rfl rfl hnil.symm).after_coreTurn ht
    · exact (h.takeEvent hr).after_coreTurn ht
  | host cmd r hr ht => exact ht ▸ (h.takeEvent hr).after_hostCommand cmd
  | answer x r hr ht => exact ht ▸ h.after_answer hr
  | sink b r hr ht => exact ht ▸ (h.takeEvent hr).of_eq rfl rfl rfl

/-- A Subleq step over an empty store that does not fault goes on at `c`. -/
theorem exec_subleq_pc_of_mem_nil (hmem : s.mem = []) (h0 : e.selector = 0) (hx : exec e.toInstr s = .next t)
    (htr : t.tr = .none) : t.pc = e.c.value := by
  rcases exec_inv hx with ⟨k, rfl, -⟩ | hd | ⟨hne, -⟩
  · cases k <;> cases htr
  · rw [hd.of_mem_nil hmem]
  · exact absurd h0 hne

end ZeroInput

/-- Settles O46: every turn keeps the premise, so the store is empty after a Subleq step as before it. -/
theorem zeroInputKeepsMemoryZero : Obligations.ZeroInputKeepsMemoryZero := by
  intro s t hmem honly ht
  obtain ⟨hmem', honly'⟩ := AllZero.after_step ⟨hmem, honly⟩ ht
  refine ⟨hmem', honly', fun e hissued hscript he h0 htr => ⟨memRead_of_mem_nil hmem' _, ?_⟩⟩
  have hexec : step s = exec e.toInstr s := (step_core hscript).trans (coreTurn_issues hissued he)
  exact exec_subleq_pc_of_mem_nil hmem h0 (hexec.symm.trans ht) htr

end Sys2Proof.Machine
end
